-- ==== Sys2Proof/Word.lean ====
section
/-! DEFINITION. The word types of the micro_pc CORE (00_scope.md R5, R6; 30_encoding.md R63). -/

namespace Sys2Proof

/-- A register, bus or immediate value: 8 bits, unsigned (R5 `XLEN`, `IMM_WIDTH`; R10, R13). -/
abbrev Byte := BitVec 8

/-- A program address: the 8-bit index of an instruction (R5 `ADDR_WIDTH`; R42). -/
abbrev Index := BitVec 8

/-- An instruction word: 24 bits, bit 0 the least significant (R5 `ILEN`; R63). -/
abbrev Word := BitVec 24

end Sys2Proof
end

