-- ==== Sys2Proof/Config.lean ====
section
/-! DEFINITION. The implementation parameters of 00_scope.md R5.
`PROG_LEN` and `ROM` are parameters too; `step` has to fetch, so they are held in State (log entry 1).
The spec settles every value an instruction produces, so there is no free value here. -/

namespace Sys2Proof.Config

/-- The most instructions a program memory holds (R5, R42). -/
def maxProgLen : Nat := 256

/-- Bytes of one instruction word in a program image (R48). -/
def wordBytes : Nat := 3

/-- The reset values the spec leaves as parameters, with the spec's defaults (R5, R29, D10; log entry 4). -/
structure Init where
  /-- `INIT_A` -/
  a : Byte := 0x00
  /-- `INIT_B` -/
  b : Byte := 0x00
  /-- `INIT_C` -/
  c : Byte := 0x00
  /-- `INIT_BUS` -/
  bus : Byte := 0x00
deriving DecidableEq, Repr

end Sys2Proof.Config
end

