-- ==== Sys2Proof/Syntax.lean ====
section
/-! DEFINITION. The decoded instruction (30_encoding.md R60, R61, R62).
Operands carry their own well-formedness: a register operand is one of three names, an immediate and an index are 8 bits,
so there is no ill-formed `Instr`. What can be ill formed is a word or a program: WellFormed.lean. -/

namespace Sys2Proof

/-- The three registers (R13); `C` is the accumulator. -/
inductive Reg where
  | A
  | B
  | C
deriving DecidableEq, Repr

/-- The ten instructions, in the order of the opcode table (R62). -/
inductive Instr where
  /-- `mov v,t`: the immediate goes to the bus, and register `t` loads it in the tick (R110). -/
  | mov (v : Byte) (t : Reg)
  /-- `mvc t`: `C` is copied to `t`; the pc is held (R111). -/
  | mvc (t : Reg)
  /-- `add t`: `t` is added to `C` (R120). -/
  | add (t : Reg)
  /-- `sub t`: `t` is subtracted from `C` (R121). -/
  | sub (t : Reg)
  /-- `cop t`: `t` drives the bus and `C` loads it, both in the tick (R112). -/
  | cop (t : Reg)
  /-- `jmp a`: jump to index `a` (R130). -/
  | jmp (a : Index)
  /-- `jml v,a`: jump to `a` if `C < v` (R132). -/
  | jml (v : Byte) (a : Index)
  /-- `jmg v,a`: jump to `a` if `C > v` (R133). -/
  | jmg (v : Byte) (a : Index)
  /-- `jme v,a`: jump to `a` if `C = v` (R134). -/
  | jme (v : Byte) (a : Index)
  /-- `hlt`: stop (R140). -/
  | hlt
deriving DecidableEq, Repr

/-- What a 24-bit word stands for: an instruction or one of the two invalid classes (R60). -/
inductive Decoded where
  /-- An instruction with its operands. -/
  | ok (i : Instr)
  /-- An opcode that is in no row of the table (R71 a). -/
  | unknownOpcode
  /-- A known opcode with operands it does not admit (R71 b). -/
  | formatError
deriving DecidableEq, Repr

end Sys2Proof
end

