-- ==== Sys2Proof/WellFormed.lean ====
section
/-! DEFINITION. When a word carries an instruction, written from the match and mask table of 30_encoding.md R68,
and when a list of words is a program (00_scope.md R5, 20_memory.md R42).
This reading of a word is independent of the decoder's (R70); that the two agree is stated for the provers. -/

namespace Sys2Proof

/-- One row of R68: which words carry one of the ten instructions. -/
structure EncRow where
  /-- The bits that `mask` selects. -/
  pattern : Word
  /-- The bits the row fixes: its opcode and every field its instruction does not use. -/
  mask : Word
  /-- Formats RI and R use the `reg` field, so register code 3 is excluded (R65, R68). -/
  usesReg : Bool
deriving DecidableEq, Repr

/-- The rows of R68, in the table's order. -/
def encRows : List EncRow :=
  [ { pattern := 0x000000, mask := 0xF300FF, usesReg := true },   -- mov
    { pattern := 0x100000, mask := 0xF3FFFF, usesReg := true },   -- mvc
    { pattern := 0x200000, mask := 0xF3FFFF, usesReg := true },   -- add
    { pattern := 0x300000, mask := 0xF3FFFF, usesReg := true },   -- sub
    { pattern := 0x400000, mask := 0xF3FFFF, usesReg := true },   -- cop
    { pattern := 0x500000, mask := 0xFFFF00, usesReg := false },  -- jmp
    { pattern := 0x600000, mask := 0xFF0000, usesReg := false },  -- jml
    { pattern := 0x700000, mask := 0xFF0000, usesReg := false },  -- jmg
    { pattern := 0x800000, mask := 0xFF0000, usesReg := false },  -- jme
    { pattern := 0x900000, mask := 0xFFFFFF, usesReg := false } ] -- hlt

/-- `w` is the row's instruction: `(w AND mask) = match`, and `w[19:18] != 0b11` where the register field is used (R68). -/
def EncRow.fits (row : EncRow) (w : Word) : Bool :=
  (w &&& row.mask == row.pattern) && !(row.usesReg && (w &&& 0x0C0000 == 0x0C0000))

/-- `w` carries some instruction (R68). -/
def wellFormedWord (w : Word) : Bool :=
  encRows.any (fun row => row.fits w)

/-- `ws` fits a program memory: at most 256 instructions (R5, R42). Its words may be anything (R60, R155). -/
def wellFormedProgram (ws : List Word) : Bool :=
  decide (ws.length ≤ Config.maxProgLen)

end Sys2Proof
end

