-- ==== Sys2Proof/Decode.lean ====
section
/-! DEFINITION. The instruction word: its fields, the decoder (30_encoding.md R63 to R73), the encoder (R68) and the byte form
of a program image (20_memory.md R48). -/

namespace Sys2Proof

/-- `opcode`, `w[23:20]` (R63). -/
def opcodeField (w : Word) : BitVec 4 := w.extractLsb' 20 4

/-- `reg`, `w[19:18]` (R63, R65). -/
def regField (w : Word) : BitVec 2 := w.extractLsb' 18 2

/-- `mbz`, `w[17:16]` (R63). -/
def mbzField (w : Word) : BitVec 2 := w.extractLsb' 16 2

/-- `imm`, `w[15:8]` (R63, R64). -/
def immField (w : Word) : Byte := w.extractLsb' 8 8

/-- `tgt`, `w[7:0]` (R63, R66). -/
def tgtField (w : Word) : Index := w.extractLsb' 0 8

/-- The register a code names; code 3 names none (R65). -/
def regOfCode (rc : BitVec 2) : Option Reg :=
  if rc = 0 then some .A else if rc = 1 then some .B else if rc = 2 then some .C else none

/-- Format RI, `mov`: the register code names a register and `tgt` is 0 (R69, R70). -/
def decodeRI (w : Word) : Decoded :=
  match regOfCode (regField w) with
  | none => .formatError
  | some t => if tgtField w = 0 then .ok (.mov (immField w) t) else .formatError

/-- Format R: the register code names a register, `imm` and `tgt` are 0 (R69, R70). -/
def decodeR (mk : Reg → Instr) (w : Word) : Decoded :=
  match regOfCode (regField w) with
  | none => .formatError
  | some t => if immField w = 0 ∧ tgtField w = 0 then .ok (mk t) else .formatError

/-- Format J, `jmp`: `reg` and `imm` are 0 (R69, R70). -/
def decodeJ (w : Word) : Decoded :=
  if regField w = 0 ∧ immField w = 0 then .ok (.jmp (tgtField w)) else .formatError

/-- Format IJ: `reg` is 0 (R69, R70). -/
def decodeIJ (mk : Byte → Index → Instr) (w : Word) : Decoded :=
  if regField w = 0 then .ok (mk (immField w) (tgtField w)) else .formatError

/-- Format N, `hlt`: `reg`, `imm` and `tgt` are 0 (R69, R70). -/
def decodeN (w : Word) : Decoded :=
  if regField w = 0 ∧ immField w = 0 ∧ tgtField w = 0 then .ok .hlt else .formatError

/-- The decoder, total on 24-bit words; the opcode is tested first (R70, R72), then `mbz`, then the opcode's own format (R67). -/
def decode (w : Word) : Decoded :=
  if 0xA ≤ (opcodeField w).toNat then .unknownOpcode
  else if mbzField w ≠ 0 then .formatError
  else match (opcodeField w).toNat with
    | 0 => decodeRI w
    | 1 => decodeR .mvc w
    | 2 => decodeR .add w
    | 3 => decodeR .sub w
    | 4 => decodeR .cop w
    | 5 => decodeJ w
    | 6 => decodeIJ .jml w
    | 7 => decodeIJ .jmg w
    | 8 => decodeIJ .jme w
    | 9 => decodeN w
    | _ => .unknownOpcode

/-- The opcode number of an instruction, in the order of the opcode table (R67). -/
def opcodeNumber : Instr → Nat
  | .mov _ _ => 0x0
  | .mvc _ => 0x1
  | .add _ => 0x2
  | .sub _ => 0x3
  | .cop _ => 0x4
  | .jmp _ => 0x5
  | .jml _ _ => 0x6
  | .jmg _ _ => 0x7
  | .jme _ _ => 0x8
  | .hlt => 0x9

/-- The code of a register: `A` = 0, `B` = 1, `C` = 2 (R65). -/
def regCode : Reg → BitVec 2
  | .A => 0
  | .B => 1
  | .C => 2

/-- A register's code in its place, `code(t) << 18` (R68). -/
def regBits (t : Reg) : Word := (regCode t).zeroExtend 24 <<< 18

/-- An immediate in its place, `v << 8` (R64, R68). -/
def immBits (v : Byte) : Word := v.zeroExtend 24 <<< 8

/-- A target in its place (R66, R68). -/
def tgtBits (a : Index) : Word := a.zeroExtend 24

/-- The word of an instruction, by the formulas of R68. -/
def encode : Instr → Word
  | .mov v t => regBits t ||| immBits v
  | .mvc t => 0x100000 ||| regBits t
  | .add t => 0x200000 ||| regBits t
  | .sub t => 0x300000 ||| regBits t
  | .cop t => 0x400000 ||| regBits t
  | .jmp a => 0x500000 ||| tgtBits a
  | .jml v a => 0x600000 ||| immBits v ||| tgtBits a
  | .jmg v a => 0x700000 ||| immBits v ||| tgtBits a
  | .jme v a => 0x800000 ||| immBits v ||| tgtBits a
  | .hlt => 0x900000

/-- Byte `k` of a word in a program image, most significant first: byte 0 is `w[23:16]` (R48). -/
def wordByte (w : Word) : Nat → Byte
  | 0 => w.extractLsb' 16 8
  | 1 => w.extractLsb' 8 8
  | _ => w.extractLsb' 0 8

/-- The word of three image bytes in their order (R48). -/
def wordOfBytes (b0 b1 b2 : Byte) : Word := b0 ++ b1 ++ b2

/-- What a byte stream holds first: one decoded word and the bytes after it, or too few bytes to make a word
(a fetch never meets this: the core moves whole words, R48; log entry 12). -/
inductive DecodedBytes where
  | word (d : Decoded) (rest : List Byte)
  | tooShort (n : Nat)
deriving DecidableEq, Repr

/-- Decode the first word of a byte stream (R48, R70), total on any bytes. -/
def decodeBytes : List Byte → DecodedBytes
  | b0 :: b1 :: b2 :: rest => .word (decode (wordOfBytes b0 b1 b2)) rest
  | bs => .tooShort bs.length

/-- The instruction the decoder reads from the `nbits` low bits of `w`, laid out as an image holds them (R48).
`none` where the decoder refuses, and for a number that does not fit one 24-bit word (log entry 12). -/
def decodeTableWord (nbits w : Nat) : Option Instr :=
  if w % 2 ^ nbits < 2 ^ 24 then
    let word : Word := BitVec.ofNat 24 (w % 2 ^ nbits)
    match decodeBytes [wordByte word 0, wordByte word 1, wordByte word 2] with
    | .word (.ok i) _ => some i
    | _ => none
  else none

end Sys2Proof
end

