-- ==== Sys2Proof/Machine/State.lean ====
section
/-! DEFINITION. The state of the machine (10_state.md R27), its parameters `PROG_LEN` and `ROM` (R5; log entry 1), the reasons a
step can stop, and the state after reset (R29). -/

namespace Sys2Proof.Machine

/-- The program memory as an image (R41, R48): pairs of a byte address and a byte, addresses strictly rising, no pair
whose byte is what an unlisted address reads as (`Memory.wf`, Ops.lean). Bytes `3i` to `3i+2` are the word at index `i`. -/
abbrev Memory := List Host.Cell

/-- The three faults of R150. They are raised by the fetch and by the dispatch of a machine cycle (R152 to R154), never by an
instruction's meaning (R168), and TAKEN as R151 describes: a next state whose registers `running`, `fault` and `faultAddr` record
the fault. `step` and `exec` therefore answer no `Outcome.fault` (log entry 5). That is faithful to R151, and unsafe for a
claim that takes every next state for a success: it has to look at `fault` (R159; `State.status`, Safety.lean). -/
inductive Fault where
  /-- No instruction at the current address (R152). Raised by the fetch; safe: R151 gives its whole effect. -/
  | addressError
  /-- The fetched word's opcode is in no row (R153). Raised by the dispatch; safe: R151 gives its whole effect. -/
  | unknownOpcode
  /-- A known opcode with operands it does not admit (R154). Raised by the dispatch; safe: R151 gives its whole effect. -/
  | formatError
deriving DecidableEq, Repr

/-- Why the model would have no meaning for an instruction. Every instruction has one, so nothing raises this. -/
inductive Refusal where
  /-- The instruction has no meaning yet; raised by an arm of `exec` only, and safe (nothing is claimed of it). No arm raises it. -/
  | notModelled (mnemonic : String)
deriving DecidableEq, Repr

/-- The machine: the 12 items of R27, and the two parameters a step reads. -/
structure State where
  /-- The Bus, a cell that keeps the last value written (R10). -/
  bus : Byte
  /-- Value of register A (R13). -/
  xA : Byte
  /-- Value of register B (R13). -/
  xB : Byte
  /-- Value of register C, the accumulator (R13). -/
  xC : Byte
  /-- `load` flag of A: pending "read from bus on next tick" (R14). -/
  ldA : Bool
  /-- `load` flag of B (R14). -/
  ldB : Bool
  /-- `load` flag of C (R14). -/
  ldC : Bool
  /-- `enable` flag of A: pending "write to bus on next tick" (R14). -/
  enA : Bool
  /-- `enable` flag of B (R14). -/
  enB : Bool
  /-- `enable` flag of C (R14). -/
  enC : Bool
  /-- `pc_idx`: the current address, or the last one held where the pc is absent (R20). -/
  pcIdx : Index
  /-- `pc_absent`: the pc is the absent sentinel (R20). -/
  pcAbsent : Bool
  /-- The running flag; cleared means Halted (R24). -/
  running : Bool
  /-- The fault register: 0 none, 1 AddressError, 2 UnknownOpcodeError, 3 FormatError (R25). -/
  fault : BitVec 2
  /-- `fault_addr`: the pc index at the fault, meaningless while `fault` is 0 (R26). -/
  faultAddr : Byte
  /-- `PROG_LEN`, 0 to 256: a parameter, constant while the machine runs (R5, R30; log entry 1). -/
  progLen : Fin 257
  /-- `ROM`: a parameter, never written by the core (R41; log entries 1 and 2). -/
  rom : Memory
deriving DecidableEq, Repr

/-- The machine right after reset (R29) with nothing placed in it: `PROG_LEN` = 0 and the default `INIT` values, which is the
empty program of R181, Halted. `hostReset` (Ops.lean) is the reset for every program and every `INIT`. DESIGN CHOICE
(`PROG_LEN`, log entry 3; the defaults of `INIT`, log entry 4), unsafe: a claim about this one state says nothing of others. -/
def State.reset : State where
  bus := 0x00
  xA := 0x00
  xB := 0x00
  xC := 0x00
  ldA := false
  ldB := false
  ldC := false
  enA := false
  enB := false
  enC := false
  pcIdx := 0
  pcAbsent := true
  running := false
  fault := 0
  faultAddr := 0x00
  progLen := 0
  rom := []

end Sys2Proof.Machine
end

