-- ==== Sys2Proof/Machine/Operands.lean ====
section
/-! DEFINITION. The operand forms (30_encoding.md R61) and the paths they use: a register's direct read and write path
(10_state.md R16), the bus (R10), and an address operand's path to the pc (R20). An immediate operand is used as it is (R64). -/

namespace Sys2Proof.Machine

/-- `x[r]`: the value of register `r` (R6, R16). -/
def readReg (r : Reg) (s : State) : Byte :=
  match r with
  | .A => s.xA
  | .B => s.xB
  | .C => s.xC

/-- `x[r] <- v` (R6, R16). Every register is writable (R17). -/
def writeReg (r : Reg) (v : Byte) (s : State) : State :=
  match r with
  | .A => { s with xA := v }
  | .B => { s with xB := v }
  | .C => { s with xC := v }

/-- `bus <- v`: overwrites unconditionally (R10). -/
def writeBus (v : Byte) (s : State) : State :=
  { s with bus := v }

/-- `pc <- target`: an index clears `pc_absent`; the absent sentinel sets it and leaves `pc_idx` as it is (R20). -/
def writePc (target : Option Index) (s : State) : State :=
  match target with
  | some i => { s with pcIdx := i, pcAbsent := false }
  | none => { s with pcAbsent := true }

end Sys2Proof.Machine
end

