-- ==== Sys2Proof/Machine/Flags.lean ====
section
/-! DEFINITION. The flags of the machine are the `load` and `enable` flags of the three registers (10_state.md R14, R19): there
are no condition codes. What other machines keep in flags, this one computes where it is used: the wrapped results of `add` and
`sub` (42_arithmetic.md R123) and the unsigned comparisons of the conditional jumps (43_jumps.md R131). -/

namespace Sys2Proof.Machine

/-- `ld[r]` (R14). -/
def loadPending (r : Reg) (s : State) : Bool :=
  match r with
  | .A => s.ldA
  | .B => s.ldB
  | .C => s.ldC

/-- `en[r]` (R14). -/
def enablePending (r : Reg) (s : State) : Bool :=
  match r with
  | .A => s.enA
  | .B => s.enB
  | .C => s.enC

/-- `ld[r] <- b` (R14). -/
def setLoad (r : Reg) (b : Bool) (s : State) : State :=
  match r with
  | .A => { s with ldA := b }
  | .B => { s with ldB := b }
  | .C => { s with ldC := b }

/-- `en[r] <- b` (R14). -/
def setEnable (r : Reg) (b : Bool) (s : State) : State :=
  match r with
  | .A => { s with enA := b }
  | .B => { s with enB := b }
  | .C => { s with enC := b }

/-- The sum modulo 256; no carry is kept (R120, R122). -/
def wrapAdd (c t : Byte) : Byte := BitVec.ofNat 8 ((c.toNat + t.toNat) % 256)

/-- The difference modulo 256, the non-negative remainder; no borrow is kept (R121, R122). -/
def wrapSub (c t : Byte) : Byte := BitVec.ofInt 8 (((c.toNat : Int) - (t.toNat : Int)) % 256)

/-- `c < v` on unsigned values (R131, R132). -/
def lessThan (c v : Byte) : Bool := decide (c.toNat < v.toNat)

/-- `c > v` on unsigned values (R131, R133). -/
def greaterThan (c v : Byte) : Bool := decide (v.toNat < c.toNat)

/-- `c = v` (R131, R134). -/
def equalTo (c v : Byte) : Bool := decide (c.toNat = v.toNat)

end Sys2Proof.Machine
end

