-- ==== Sys2Proof/Machine/Ops.lean ====
section
/-! DEFINITION. The shared operations: the program memory, fetch and next address (20_memory.md), the three ways a handler leaves
the pc (10_state.md R21), the register tick and the halt test (40_cycle_and_tick.md), taking a fault (60_exceptions.md R151), and
reset (70_reset_and_hazards.md R180). There is no return from a fault to write beside it (R156). -/

namespace Sys2Proof.Machine

/-! ### The program memory as an image -/

/-- What an unlisted byte of the image reads as: 0x00 (DESIGN CHOICE, log entry 2, unsafe). -/
def Memory.unlisted : Byte := 0x00

/-- The bytes of a full program memory: 256 words of three bytes (R5, R48). -/
def Memory.size : Nat := Config.maxProgLen * Config.wordBytes

/-- The canonical form: addresses strictly rising and inside the image, no byte equal to what an unlisted address reads as. -/
abbrev Memory.wf (m : Memory) : Prop :=
  m.Pairwise (fun p q => p.1 < q.1) ∧ ∀ c ∈ m, c.1 < Memory.size ∧ c.2 ≠ Memory.unlisted

/-- The byte at `a`. -/
def Memory.read (m : Memory) (a : Nat) : Byte :=
  match m with
  | [] => Memory.unlisted
  | (k, v) :: rest => if k = a then v else Memory.read rest a

/-- `m` with the byte at `a` set to `b`, in canonical form. Only the host's loading of a program uses it (R41, R182). -/
def Memory.write (m : Memory) (a : Nat) (b : Byte) : Memory :=
  match m with
  | [] => if b = Memory.unlisted then [] else [(a, b)]
  | (k, v) :: rest =>
    if a < k then (if b = Memory.unlisted then (k, v) :: rest else (a, b) :: (k, v) :: rest)
    else if a = k then (if b = Memory.unlisted then rest else (a, b) :: rest)
    else (k, v) :: Memory.write rest a b

/-- The word at index `i` of the image, most significant byte first (R48). -/
def Memory.readWord (m : Memory) (i : Index) : Word :=
  wordOfBytes (m.read (Config.wordBytes * i.toNat)) (m.read (Config.wordBytes * i.toNat + 1))
    (m.read (Config.wordBytes * i.toNat + 2))

/-- `m` with the word at index `i` set to `w` (R48); the host's, as `Memory.write`. -/
def Memory.writeWord (m : Memory) (i : Index) (w : Word) : Memory :=
  ((m.write (Config.wordBytes * i.toNat) (wordByte w 0)).write (Config.wordBytes * i.toNat + 1) (wordByte w 1)).write
    (Config.wordBytes * i.toNat + 2) (wordByte w 2)

/-! ### Fetch and next address -/

/-- `MemRead(i, 1)`, defined for `i < PROG_LEN` (R6, R44). -/
def memRead (i : Index) (s : State) : Option Word :=
  if i.toNat < s.progLen.val then some (Memory.readWord s.rom i) else none

/-- Step 1 of a cycle: the word at the current address, or AddressError where there is none (R44, R92).
A running machine's pc is never absent (R23); where it is all the same, this answers AddressError (log entry 6). -/
def fetch (s : State) : Except Fault Word :=
  if s.pcAbsent then .error .addressError
  else match memRead s.pcIdx s with
    | some w => .ok w
    | none => .error .addressError

/-- Steps 1 and 2 up to the handler: the instruction at the pc, or the fault its absence or its word raises, the fetch's before
the dispatch's (R90, R93, R157). -/
def fetchInstr (s : State) : Except Fault Instr :=
  match fetch s with
  | .error f => .error f
  | .ok w =>
    match decode w with
    | .ok i => .ok i
    | .unknownOpcode => .error .unknownOpcode
    | .formatError => .error .formatError

/-- `next(i)`: the index after `i`, or absent after the last one; it never wraps (R22, R45). -/
def nextAddr (i : Index) (s : State) : Option Index :=
  if i.toNat + 1 < s.progLen.val then some (i + 1) else none

/-- `pc <- next(pc)` (R21 a; log entry 7 for a pc no fetch admits). -/
def advance (s : State) : State := writePc (nextAddr s.pcIdx s) s

/-- `pc <- a`: the target is not validated (R21 b, R135). -/
def jumpTo (a : Index) (s : State) : State := writePc (some a) s

/-- Take the jump if the condition holds, else advance (R132 to R134). -/
def branch (taken : Bool) (a : Index) (s : State) : State :=
  if taken then jumpTo a s else advance s

/-! ### Tick and halt test -/

/-- The load half of a register's tick: `x[r] <- bus` if pending, then the flag is clear (R96). -/
def tickLoad (r : Reg) (s : State) : State :=
  setLoad r false (if loadPending r s then writeReg r s.bus s else s)

/-- The enable half: `bus <- x[r]` if pending, then the flag is clear (R96). -/
def tickEnable (r : Reg) (s : State) : State :=
  setEnable r false (if enablePending r s then writeBus (readReg r s) s else s)

/-- The tick of one register: load first, then enable, which sees the value after the load (R96, R97). -/
def tickReg (r : Reg) (s : State) : State := tickEnable r (tickLoad r s)

/-- The order in which registers tick (R5 `TICK_ORDER`, R94, R95). -/
def tickOrder : List Reg := [.A, .B, .C]

/-- Step 3 of a cycle: tick every register once, in `tickOrder` (R94). -/
def tick (s : State) : State := tickOrder.foldl (fun u r => tickReg r u) s

/-- Step 4 of a cycle: an absent pc clears `running` (R99). -/
def haltTest (s : State) : State :=
  if s.pcAbsent then { s with running := false } else s

/-- Steps 3 and 4 after a handler's outcome (R90). -/
def endCycle (o : Host.Outcome State Fault Refusal) : Host.Outcome State Fault Refusal :=
  match o with
  | .next s => .next (haltTest (tick s))
  | .fault r => .fault r
  | .refused r => .refused r

/-! ### Taking a fault -/

/-- The code a fault leaves in the fault register (R25, R150). -/
def Fault.code : Fault → BitVec 2
  | .addressError => 1
  | .unknownOpcode => 2
  | .formatError => 3

/-- The fault a code stands for; 0 is none (R25). -/
def faultOfCode (c : BitVec 2) : Option Fault :=
  if c = 1 then some .addressError
  else if c = 2 then some .unknownOpcode
  else if c = 3 then some .formatError
  else none

/-- `raise F(i)`, all the trap entry the hardware has: `running`, `fault` and `fault_addr` are written and nothing else; there
is no handler to go to (R151, R156). -/
def raise (f : Fault) (s : State) : State :=
  { s with running := false, fault := f.code, faultAddr := s.pcIdx }

/-! ### Reset and the placing of an instruction: the host's actions (R4) -/

/-- The state after reset for a program memory in place and given `INIT` values (R29, R180, R181). -/
def hostReset (init : Config.Init) (rom : Memory) (progLen : Fin 257) : State where
  bus := init.bus
  xA := init.a
  xB := init.b
  xC := init.c
  ldA := false
  ldB := false
  ldC := false
  enA := false
  enB := false
  enC := false
  pcIdx := 0
  pcAbsent := decide (progLen.val = 0)
  running := decide (1 ≤ progLen.val)
  fault := 0
  faultAddr := 0x00
  progLen := progLen
  rom := rom

/-- Reset asserted in state `s`: nothing survives but the program memory, which is no state (R27, R180). -/
def assertReset (init : Config.Init) (s : State) : State :=
  hostReset init s.rom s.progLen

/-- `s` with `w` in the program memory at `pc_idx`, and the machine running there; the program memory is as long as that
needs and no shorter than it was (log entry 10). -/
def placeWord (w : Word) (s : State) : State :=
  { s with
    rom := s.rom.writeWord s.pcIdx w
    progLen := ⟨max s.progLen.val (s.pcIdx.toNat + 1), by
      have h1 := s.progLen.isLt
      have h2 := s.pcIdx.isLt
      omega⟩
    pcAbsent := false
    running := true }

end Sys2Proof.Machine
end

