-- ==== Sys2Proof/Machine/Arithmetic.lean ====
section
/-! DEFINITION. The handlers of `add` and `sub` (42_arithmetic.md): direct on register values, no bus, no flag (R120 to R123). -/

namespace Sys2Proof.Machine

/-- `add t`: `x[C] <- (x[C] + x[t]) mod 256; pc <- next(pc)` (R120). -/
def execAdd (t : Reg) (s : State) : Host.Outcome State Fault Refusal :=
  .next (advance (writeReg .C (wrapAdd (readReg .C s) (readReg t s)) s))

/-- `sub t`: `x[C] <- (x[C] - x[t]) mod 256; pc <- next(pc)` (R121). -/
def execSub (t : Reg) (s : State) : Host.Outcome State Fault Refusal :=
  .next (advance (writeReg .C (wrapSub (readReg .C s) (readReg t s)) s))

end Sys2Proof.Machine
end

