-- ==== Sys2Proof/Machine/Halt.lean ====
section
/-! DEFINITION. The handler of `hlt` (44_halt.md), the only system instruction (R141). -/

namespace Sys2Proof.Machine

/-- `hlt`: `running <- 0`, and the pc is not written (R140). -/
def execHlt (s : State) : Host.Outcome State Fault Refusal :=
  .next { s with running := false }

end Sys2Proof.Machine
end

