-- ==== Sys2Proof/Machine/Jumps.lean ====
section
/-! DEFINITION. The handlers of `jmp`, `jml`, `jmg` and `jme` (43_jumps.md). They write the pc and nothing else; a target is not
validated (R135). -/

namespace Sys2Proof.Machine

/-- `jmp a`: `pc <- a` (R130). -/
def execJmp (a : Index) (s : State) : Host.Outcome State Fault Refusal :=
  .next (jumpTo a s)

/-- `jml v,a`: `if x[C] < v then pc <- a else pc <- next(pc)` (R132). -/
def execJml (v : Byte) (a : Index) (s : State) : Host.Outcome State Fault Refusal :=
  .next (branch (lessThan (readReg .C s) v) a s)

/-- `jmg v,a`: `if x[C] > v then pc <- a else pc <- next(pc)` (R133). -/
def execJmg (v : Byte) (a : Index) (s : State) : Host.Outcome State Fault Refusal :=
  .next (branch (greaterThan (readReg .C s) v) a s)

/-- `jme v,a`: `if x[C] = v then pc <- a else pc <- next(pc)` (R134). -/
def execJme (v : Byte) (a : Index) (s : State) : Host.Outcome State Fault Refusal :=
  .next (branch (equalTo (readReg .C s) v) a s)

end Sys2Proof.Machine
end

