-- ==== Sys2Proof/Machine/Transfer.lean ====
section
/-! DEFINITION. The handlers of `mov`, `mvc` and `cop` (41_transfer.md). A handler is step 2 of the machine cycle alone; the tick and
the halt test follow in `step` (R90; log entry 8). -/

namespace Sys2Proof.Machine

/-- `mov v,t`: `bus <- v; ld[t] <- 1; pc <- next(pc)` (R110). -/
def execMov (v : Byte) (t : Reg) (s : State) : Host.Outcome State Fault Refusal :=
  .next (advance (setLoad t true (writeBus v s)))

/-- `mvc t`: `x[t] <- x[C]`, and the pc is not written (R111). -/
def execMvc (t : Reg) (s : State) : Host.Outcome State Fault Refusal :=
  .next (writeReg t (readReg .C s) s)

/-- `cop t`: `en[t] <- 1; ld[C] <- 1; pc <- next(pc)` (R112). -/
def execCop (t : Reg) (s : State) : Host.Outcome State Fault Refusal :=
  .next (advance (setLoad .C true (setEnable t true s)))

end Sys2Proof.Machine
end

