-- ==== Sys2Proof/Machine/Dispatch.lean ====
section
/-! DEFINITION. The dispatch of step 2 of a machine cycle: one handler per opcode (40_cycle_and_tick.md R93). -/

namespace Sys2Proof.Machine

def exec (i : Instr) (s : State) : Host.Outcome State Fault Refusal :=
  match i with
  | .mov v t => Sys2Proof.Machine.execMov v t s
  | .mvc t => Sys2Proof.Machine.execMvc t s
  | .add t => Sys2Proof.Machine.execAdd t s
  | .sub t => Sys2Proof.Machine.execSub t s
  | .cop t => Sys2Proof.Machine.execCop t s
  | .jmp a => Sys2Proof.Machine.execJmp a s
  | .jml v a => Sys2Proof.Machine.execJml v a s
  | .jmg v a => Sys2Proof.Machine.execJmg v a s
  | .jme v a => Sys2Proof.Machine.execJme v a s
  | .hlt => Sys2Proof.Machine.execHlt s

end Sys2Proof.Machine
end

