-- ==== Sys2Proof/Machine/Step.lean ====
section
/-! DEFINITION. One machine cycle (40_cycle_and_tick.md R90), and the placing of an instruction where it fetches. -/

namespace Sys2Proof.Machine

/-- One machine cycle: a Halted machine changes nothing (R91); else fetch and dispatch, where a fault ends the cycle on the spot
(R151), the handler, the tick and the halt test (R90). -/
def step (s : State) : Host.Outcome State Fault Refusal :=
  if s.running then
    match fetchInstr s with
    | .error f => .next (raise f s)
    | .ok i => endCycle (exec i s)
  else .next s

/-- `s` with the instruction of `nbits` bits of `w` where the next step fetches it, the machine running there (log entry 10). -/
def State.withFetchWord (s : State) (nbits w : Nat) : State :=
  placeWord (BitVec.ofNat 24 (w % 2 ^ nbits)) s

end Sys2Proof.Machine
end

