-- ==== Sys2Proof/Machine/Loader.lean ====
section
/-! DEFINITION. What the host does before reset is released (70_reset_and_hazards.md R182): the image of a program (20_memory.md R48)
and the boot from it. Before that, the map from a labelled program to words (R43) with the words that carry an invalid
instruction (30_encoding.md R86). Reading program text (R80 to R85) is the ROM loader's and out of scope (00_scope.md R3 a). -/

namespace Sys2Proof.Machine

/-- The image of the words `ws` from index `i` on (R48). -/
def imageFrom (i : Nat) (ws : List Word) : Memory :=
  match ws with
  | [] => []
  | w :: rest => (imageFrom (i + 1) rest).writeWord (BitVec.ofNat 8 i) w

/-- Load `ws`, then release reset; refused where `ws` does not fit the program memory (R5, R29, R182). -/
def bootWith (init : Config.Init) (ws : List Word) : Option State :=
  if h : wellFormedProgram ws = true then
    some (hostReset init (imageFrom 0 ws) ⟨ws.length, Nat.lt_succ_of_le (of_decide_eq_true h)⟩)
  else none

/-- One instruction of a labelled program; jump operands are labels. The last two stand for texts that load and fault only
when they are executed (R60, R86). -/
inductive SourceInstr (α : Type) where
  | mov (v : Byte) (t : Reg)
  | mvc (t : Reg)
  | add (t : Reg)
  | sub (t : Reg)
  | cop (t : Reg)
  | jmp (l : α)
  | jml (v : Byte) (l : α)
  | jmg (v : Byte) (l : α)
  | jme (v : Byte) (l : α)
  | hlt
  /-- A mnemonic that is none of the ten. -/
  | unknownMnemonic
  /-- A known mnemonic, by its opcode number, whose operand string is malformed or names no register. -/
  | malformed (opcode : Fin 10)
deriving DecidableEq, Repr

/-- The index of a label: its position, or, where it is no label of the program, the program's length N, an index with no
instruction; refused where that is not an 8-bit index (R43; DESIGN CHOICE, log entry 9, safe). -/
def labelIndex {α : Type} [DecidableEq α] (labels : List α) (l : α) : Option Index :=
  if labels.idxOf l < Config.maxProgLen then some (BitVec.ofNat 8 (labels.idxOf l)) else none

/-- What a source instruction stands for once its labels are indices (R43, R60). -/
def resolve {α : Type} [DecidableEq α] (labels : List α) : SourceInstr α → Option Decoded
  | .mov v t => some (.ok (.mov v t))
  | .mvc t => some (.ok (.mvc t))
  | .add t => some (.ok (.add t))
  | .sub t => some (.ok (.sub t))
  | .cop t => some (.ok (.cop t))
  | .jmp l => (labelIndex labels l).map fun a => .ok (.jmp a)
  | .jml v l => (labelIndex labels l).map fun a => .ok (.jml v a)
  | .jmg v l => (labelIndex labels l).map fun a => .ok (.jmg v a)
  | .jme v l => (labelIndex labels l).map fun a => .ok (.jme v a)
  | .hlt => some (.ok .hlt)
  | .unknownMnemonic => some .unknownOpcode
  | .malformed _ => some .formatError

/-- The word the assembler emits: the encoding of an instruction (R68), `0xF00000` for an unknown mnemonic and
`(opcode << 20) OR 0x030000` for malformed operands (R86). -/
def assembleWord {α : Type} [DecidableEq α] (labels : List α) (x : SourceInstr α) : Option Word :=
  match x with
  | .unknownMnemonic => some 0xF00000
  | .malformed opcode => some ((BitVec.ofNat 24 opcode.val <<< 20) ||| 0x030000)
  | x =>
    match resolve labels x with
    | some (.ok i) => some (encode i)
    | _ => none

/-- The words of the lines of a program, in order; refused where one line is. -/
def assembleLines {α : Type} [DecidableEq α] (labels : List α) : List (α × SourceInstr α) → Option (List Word)
  | [] => some []
  | line :: rest =>
    match assembleWord labels line.2, assembleLines labels rest with
    | some w, some ws => some (w :: ws)
    | _, _ => none

/-- The words of a labelled program; refused where labels repeat (R42, R84) or it does not fit (R5, R43). -/
def assemble {α : Type} [DecidableEq α] (p : List (α × SourceInstr α)) : Option (List Word) :=
  if (p.map Prod.fst).Nodup ∧ p.length ≤ Config.maxProgLen then assembleLines (p.map Prod.fst) p else none

end Sys2Proof.Machine
end

