-- ==== Sys2Proof/Machine/NetEffect.lean ====
section
/-! DEFINITION. The spec's two handier views of a machine cycle, written without the machine's own operations: the table of
end-of-cycle effects (40_cycle_and_tick.md R102), and the machine over decoded instructions without flags
(00_scope.md R9, 10_state.md R18). The model is `step`; that these agree with it is stated for the provers. -/

namespace Sys2Proof.Machine

/-- `pc = next(i)`, and `running <- 0` where that is absent (R102), for a present pc that holds an instruction; no rule gives the
rest, and what stands for it here is the model's choice (DESIGN CHOICE, log entry 14). -/
def netAdvance (s : State) : State :=
  if s.pcIdx.toNat + 1 < s.progLen.val then { s with pcIdx := s.pcIdx + 1 }
  else { s with pcAbsent := true, running := false }

/-- `pc = a` or `next(i)` (R102). -/
def netBranch (taken : Prop) [Decidable taken] (a : Index) (s : State) : State :=
  if taken then { s with pcIdx := a } else netAdvance s

/-- The rows of R102: the state at the end of a cycle that runs `i` from a running state with all flags 0 and a pc
that holds an instruction. In other states R102 has no row, and the value here is the model's choice (log entry 14). -/
def netEffect (i : Instr) (s : State) : State :=
  match i with
  | .mov v .A => netAdvance { s with bus := v, xA := v }
  | .mov v .B => netAdvance { s with bus := v, xB := v }
  | .mov v .C => netAdvance { s with bus := v, xC := v }
  | .mvc .A => { s with xA := s.xC }
  | .mvc .B => { s with xB := s.xC }
  | .mvc .C => s
  | .add .A => netAdvance { s with xC := s.xC + s.xA }
  | .add .B => netAdvance { s with xC := s.xC + s.xB }
  | .add .C => netAdvance { s with xC := s.xC + s.xC }
  | .sub .A => netAdvance { s with xC := s.xC - s.xA }
  | .sub .B => netAdvance { s with xC := s.xC - s.xB }
  | .sub .C => netAdvance { s with xC := 0 }
  | .cop .A => netAdvance { s with bus := s.xA, xC := s.xA }
  | .cop .B => netAdvance { s with bus := s.xB, xC := s.xB }
  | .cop .C => netAdvance { s with xC := s.bus }
  | .jmp a => { s with pcIdx := a }
  | .jml v a => netBranch (s.xC < v) a s
  | .jmg v a => netBranch (v < s.xC) a s
  | .jme v a => netBranch (s.xC = v) a s
  | .hlt => { s with running := false }

/-! ### The machine over decoded instructions -/

/-- Its state: no flags (R18), the pc an index or absent (R6), and the fault with its address where one was raised. -/
structure DecodedState where
  bus : Byte
  a : Byte
  b : Byte
  c : Byte
  pc : Option Index
  running : Bool
  fault : Option (Fault × Index)
deriving DecidableEq, Repr

/-- A register's value. -/
def DecodedState.get (q : DecodedState) : Reg → Byte
  | .A => q.a
  | .B => q.b
  | .C => q.c

/-- A register's value written. -/
def DecodedState.set (q : DecodedState) (v : Byte) : Reg → DecodedState
  | .A => { q with a := v }
  | .B => { q with b := v }
  | .C => { q with c := v }

/-- Advance from index `i` of a program of `n` instructions, ending the run after the last one (R45, R99). -/
def DecodedState.goNext (n : Nat) (i : Index) (q : DecodedState) : DecodedState :=
  if i.toNat + 1 < n then { q with pc := some (i + 1) } else { q with pc := none, running := false }

/-- The cycle of one instruction at index `i` of a program of `n` instructions (R102). -/
def decodedInstr (n : Nat) (i : Index) (x : Instr) (q : DecodedState) : DecodedState :=
  match x with
  | .mov v t => DecodedState.goNext n i ({ q with bus := v }.set v t)
  | .mvc t => q.set q.c t
  | .add t => DecodedState.goNext n i { q with c := q.c + q.get t }
  | .sub t => DecodedState.goNext n i { q with c := q.c - q.get t }
  | .cop .C => DecodedState.goNext n i { q with c := q.bus }
  | .cop t => DecodedState.goNext n i { q with bus := q.get t, c := q.get t }
  | .jmp a => { q with pc := some a }
  | .jml v a => if q.c < v then { q with pc := some a } else DecodedState.goNext n i q
  | .jmg v a => if v < q.c then { q with pc := some a } else DecodedState.goNext n i q
  | .jme v a => if q.c = v then { q with pc := some a } else DecodedState.goNext n i q
  | .hlt => { q with running := false }

/-- One cycle over a program given as a list of at most 256 decoded instructions (R9, R90, R91, R151). R23 excludes a running
machine with an absent pc, and no rule gives its cycle: that this machine is left unchanged there, where `step` raises
AddressError (log entry 6), is the model's choice; so is what it does with a longer list (DESIGN CHOICE, log entry 14). -/
def decodedStep (prog : List Decoded) (q : DecodedState) : DecodedState :=
  match q.running, q.pc with
  | true, some i =>
    match prog[i.toNat]? with
    | none => { q with running := false, fault := some (.addressError, i) }
    | some .unknownOpcode => { q with running := false, fault := some (.unknownOpcode, i) }
    | some .formatError => { q with running := false, fault := some (.formatError, i) }
    | some (.ok x) => decodedInstr prog.length i x q
  | _, _ => q

/-- The program a state holds, decoded (R9, R42). -/
def State.decodedProgram (s : State) : List Decoded :=
  (List.range s.progLen.val).map fun i => decode (Memory.readWord s.rom (BitVec.ofNat 8 i))

/-- The decoded machine's view of a state. -/
def State.decodedView (s : State) : DecodedState where
  bus := s.bus
  a := s.xA
  b := s.xB
  c := s.xC
  pc := if s.pcAbsent then none else some s.pcIdx
  running := s.running
  fault := (faultOfCode s.fault).map fun f => (f, s.faultAddr)

end Sys2Proof.Machine
end

