-- ==== Sys2Proof/Machine/Ports.lean ====
section
/-! DEFINITION. The external interface the spec gives the core (10_state.md R30, 70_reset_and_hazards.md R180): the output ports as
a view of the state, and one rising clock edge with the `rst` input. The inputs `rom_data` and `prog_len` are the program memory
that State holds (log entry 1), so `rom_data` is given as a view too. The host has no other way in (00_scope.md R4). -/

namespace Sys2Proof.Machine

/-- The output ports of R30. -/
structure Outputs where
  /-- `rom_addr` -/
  romAddr : Index
  /-- `bus_o` -/
  bus : Byte
  /-- `a_o` -/
  a : Byte
  /-- `b_o` -/
  b : Byte
  /-- `c_o` -/
  c : Byte
  /-- `pc_o` -/
  pc : Index
  /-- `pc_absent_o` -/
  pcAbsent : Bool
  /-- `running_o` -/
  running : Bool
  /-- `fault_o` -/
  fault : BitVec 2
  /-- `fault_addr_o` -/
  faultAddr : Byte
deriving DecidableEq, Repr

/-- The outputs at a cycle boundary; observing has no effect (R30, R165). -/
def State.outputs (s : State) : Outputs where
  romAddr := s.pcIdx
  bus := s.bus
  a := s.xA
  b := s.xB
  c := s.xC
  pc := s.pcIdx
  pcAbsent := s.pcAbsent
  running := s.running
  fault := s.fault
  faultAddr := s.faultAddr

/-- `rom_data`: the word at `rom_addr`, valid where `rom_addr < PROG_LEN` (R30). -/
def State.romData (s : State) : Option Word := memRead s.outputs.romAddr s

/-- One rising edge of `clk`: with `rst` the reset state and no machine cycle, else one machine cycle (R30, R180; log entry 11). -/
def clockEdge (init : Config.Init) (rst : Bool) (s : State) : Host.Outcome State Fault Refusal :=
  if rst then .next (assertReset init s) else step s

end Sys2Proof.Machine
end

