-- ==== Sys2Proof/Safety.lean ====
section
/-! DEFINITION. The terms claims are stated in: how a run stands and ends (40_cycle_and_tick.md R100, 60_exceptions.md R159), the
invariant of the machine at cycle boundaries (10_state.md R18, R23, R25), and the frame of a step. -/

namespace Sys2Proof.Machine

/-- How a run stands: going on, or ended in one of the three ways of R100. -/
inductive Status where
  /-- `running = 1`. -/
  | running
  /-- `hlt` was executed: `running = 0`, `fault = 0`, the pc at the `hlt` (R100 a). -/
  | halted
  /-- Natural end: `running = 0`, `fault = 0`, the pc absent (R100 b); an empty program is there at reset (R181; log entry 13). -/
  | ended
  /-- A fault: `running = 0`, `fault` its code (R100 c). -/
  | faulted (f : Fault)
deriving DecidableEq, Repr

/-- How the run stands in `s` (R100, R159). -/
def State.status (s : State) : Status :=
  if s.running then .running
  else match faultOfCode s.fault with
    | some f => .faulted f
    | none => if s.pcAbsent then .ended else .halted

/-- The program ran correctly: the run has ended and raised no fault (R159). -/
def State.ranCorrectly (s : State) : Prop :=
  s.running = false ∧ s.fault = 0

/-- All six flags are 0, as at every cycle boundary (R18). -/
abbrev State.flagsClear (s : State) : Prop :=
  s.ldA = false ∧ s.ldB = false ∧ s.ldC = false ∧ s.enA = false ∧ s.enB = false ∧ s.enC = false

/-- What holds at every cycle boundary of a machine that was reset. -/
structure State.Inv (s : State) : Prop where
  /-- No flag is pending (R18). -/
  flagsClear : s.flagsClear
  /-- A running machine has a pc (R23). -/
  runningHasPc : s.running = true → s.pcAbsent = false
  /-- A running machine has raised no fault (R25, R156). -/
  runningNoFault : s.running = true → s.fault = 0
  /-- A faulted machine still holds the faulting address in its pc (R100 c, R151). -/
  faultedPc : s.fault ≠ 0 → s.pcAbsent = false ∧ s.faultAddr = s.pcIdx
  /-- The pc becomes absent only by an advance from the last instruction, whose index it keeps (R20, R99); or there is none. -/
  absentAfterLast : s.pcAbsent = true → s.progLen.val ≠ 0 → s.pcIdx.toNat + 1 = s.progLen.val
  /-- The program image is in canonical form. -/
  romWf : Memory.wf s.rom
  /-- The image lists nothing at or beyond `PROG_LEN`, where there is no instruction (R50). -/
  romInside : ∀ c ∈ s.rom, c.1 < Config.wordBytes * s.progLen.val

/-! ### Frames -/

/-- From `s` to `u` the pc went from `i` to `next(i)` (R20, R45); where the pc of `s` is absent or at or past PROG_LEN, this is the
model's choice (log entry 7). -/
def PcAdvanced (s u : State) : Prop :=
  if s.pcIdx.toNat + 1 < s.progLen.val then u.pcIdx.toNat = s.pcIdx.toNat + 1 ∧ u.pcAbsent = false
  else u.pcIdx = s.pcIdx ∧ u.pcAbsent = true

/-- The pc of `u` is the index `a` (R20). -/
def PcIs (a : Index) (u : State) : Prop := u.pcIdx = a ∧ u.pcAbsent = false

/-- The pc was not written (R21 c). -/
def PcHeld (s u : State) : Prop := u.pcIdx = s.pcIdx ∧ u.pcAbsent = s.pcAbsent

/-- No register but those in `written` changed. -/
def RegsKeptBut (written : List Reg) (s u : State) : Prop :=
  ∀ r, r ∉ written → readReg r u = readReg r s

/-- No `load` flag but those in `loads`, and no `enable` flag but those in `enables`, changed. -/
def FlagsKeptBut (loads enables : List Reg) (s u : State) : Prop :=
  (∀ r, r ∉ loads → loadPending r u = loadPending r s) ∧ (∀ r, r ∉ enables → enablePending r u = enablePending r s)

/-- The fault registers are as they were (R25, R26). -/
def FaultKept (s u : State) : Prop := u.fault = s.fault ∧ u.faultAddr = s.faultAddr

/-- The program memory is as it was: its length, and every byte of its image (R41). -/
def ProgramKept (s u : State) : Prop :=
  u.progLen = s.progLen ∧ ∀ a, Memory.read u.rom a = Memory.read s.rom a

end Sys2Proof.Machine
end

