-- ==== Sys2Proof/Certificates/Slice0/Obligations.lean ====
section
/-! DEFINITION. The statements for the provers. Each docstring names the rules of spec/ it rests on; OBLIGATIONS.json lists them. -/

open Sys2Proof Sys2Proof.Machine

/-! ### The instruction word (30_encoding.md) -/

/-- Words of 95_test_vectors.md section 2.1, one or more of each family and of each invalid class, decode as listed there. -/
def Obligations.SpecWordsDecode : Prop :=
  decode 0x000500 = .ok (.mov 0x05 .A) ∧ decode 0x04FF00 = .ok (.mov 0xFF .B) ∧ decode 0x080A00 = .ok (.mov 0x0A .C) ∧
  decode 0x140000 = .ok (.mvc .B) ∧ decode 0x480000 = .ok (.cop .C) ∧ decode 0x240000 = .ok (.add .B) ∧
  decode 0x340000 = .ok (.sub .B) ∧ decode 0x500002 = .ok (.jmp 0x02) ∧ decode 0x600B04 = .ok (.jml 0x0B 0x04) ∧
  decode 0x700B04 = .ok (.jmg 0x0B 0x04) ∧ decode 0x802506 = .ok (.jme 0x25 0x06) ∧ decode 0x900000 = .ok .hlt ∧
  decode 0x0C0100 = .formatError ∧ decode 0x540002 = .formatError ∧ decode 0xA00000 = .unknownOpcode ∧
  decode 0xF12345 = .unknownOpcode

/-- Decoding the encoding of any instruction, with any operands, gives it back (R70, the clause the spec derives). -/
def Obligations.DecodeOfEncode : Prop :=
  ∀ i : Instr, decode (encode i) = .ok i

/-- A word that decodes to an instruction is the encoding of it: no second word carries it (R70, the clause the spec derives). -/
def Obligations.EncodeOfDecode : Prop :=
  ∀ (w : Word) (i : Instr), decode w = .ok i → encode i = w

/-- A word fits row k of the match and mask table of R68 exactly where the decoder of R70 reads from it the instruction with
opcode number k (R67). -/
def Obligations.DecodeAgreesWithMaskTable : Prop :=
  ∀ (w : Word) (k : Nat) (row : EncRow), encRows[k]? = some row →
    (row.fits w = true ↔ ∃ i, decode w = .ok i ∧ opcodeNumber i = k)

/-- R72: opcodes 0xA to 0xF, and they alone, are unknown, whatever the other fields hold. -/
def Obligations.ReservedOpcodesAreUnknown : Prop :=
  ∀ w : Word, decode w = .unknownOpcode ↔ 0xA ≤ (opcodeField w).toNat

/-- R69: with a known opcode, a non-zero `mbz` or a non-zero field the opcode's format does not use is a format error. -/
def Obligations.UnusedFieldsMustBeZero : Prop :=
  ∀ w : Word, (opcodeField w).toNat ≤ 9 →
    (mbzField w ≠ 0 → decode w = .formatError) ∧
    ((opcodeField w).toNat ≤ 4 ∨ (opcodeField w).toNat = 9 → tgtField w ≠ 0 → decode w = .formatError) ∧
    ((1 ≤ (opcodeField w).toNat ∧ (opcodeField w).toNat ≤ 5) ∨ (opcodeField w).toNat = 9 → immField w ≠ 0 →
      decode w = .formatError) ∧
    (5 ≤ (opcodeField w).toNat → regField w ≠ 0 → decode w = .formatError)

/-- R65: the register codes, and code 3 in an instruction that uses the field is a format error. -/
def Obligations.RegisterCodes : Prop :=
  regOfCode 0 = some .A ∧ regOfCode 1 = some .B ∧ regOfCode 2 = some .C ∧ regOfCode 3 = none ∧
  ∀ w : Word, (opcodeField w).toNat ≤ 4 → regField w = 3 → decode w = .formatError

/-- R48: a word serialised most significant byte first is read back from a byte stream, the rest of the stream left. -/
def Obligations.ImageBytesDecode : Prop :=
  ∀ (w : Word) (rest : List Byte),
    decodeBytes (w.extractLsb' 16 8 :: w.extractLsb' 8 8 :: w.extractLsb' 0 8 :: rest) = .word (decode w) rest

/-! ### The machine cycle and the tick (40_cycle_and_tick.md) -/

/-- A step of a running machine whose word at the pc decodes to `i` is `exec i`, then the tick, then the halt test (R90). -/
def Obligations.StepRunsDecodedInstruction : Prop :=
  ∀ (s : State) (i : Instr), s.running = true → s.pcAbsent = false → s.pcIdx.toNat < s.progLen.val →
    decode (Memory.readWord s.rom s.pcIdx) = .ok i →
    ∃ t, exec i s = .next t ∧ step s = .next (haltTest (tick t))

/-- R151: a cycle that finds no instruction, an unknown opcode or a format error writes `running`, `fault` and `fault_addr` and
nothing else. -/
def Obligations.FaultEffect : Prop :=
  ∀ s : State, s.running = true → s.pcAbsent = false →
    (s.progLen.val ≤ s.pcIdx.toNat →
      step s = .next { s with running := false, fault := 1, faultAddr := s.pcIdx }) ∧
    (s.pcIdx.toNat < s.progLen.val → decode (Memory.readWord s.rom s.pcIdx) = .unknownOpcode →
      step s = .next { s with running := false, fault := 2, faultAddr := s.pcIdx }) ∧
    (s.pcIdx.toNat < s.progLen.val → decode (Memory.readWord s.rom s.pcIdx) = .formatError →
      step s = .next { s with running := false, fault := 3, faultAddr := s.pcIdx })

/-- R91: no number of cycles changes a Halted machine; reset leaves Halted where there is a program. -/
def Obligations.HaltedIsTerminal : Prop :=
  ∀ s : State, s.running = false →
    (∀ n, Host.Core.run core n s = .next s) ∧
    (∀ init, 1 ≤ s.progLen.val → (assertReset init s).running = true)

/-- R96: the tick of one register, load before enable, with its frame; and the four flag combinations the handlers leave. -/
def Obligations.OneRegisterTick : Prop :=
  (∀ (r : Reg) (s : State),
    readReg r (tickReg r s) = (if loadPending r s then s.bus else readReg r s) ∧
    (tickReg r s).bus = (if enablePending r s then readReg r (tickReg r s) else s.bus) ∧
    loadPending r (tickReg r s) = false ∧ enablePending r (tickReg r s) = false ∧
    RegsKeptBut [r] s (tickReg r s) ∧ FlagsKeptBut [r] [r] s (tickReg r s) ∧ PcHeld s (tickReg r s) ∧
    (tickReg r s).running = s.running ∧ FaultKept s (tickReg r s) ∧ ProgramKept s (tickReg r s)) ∧
  (∀ (s : State) (v : Byte) (t : Reg) (a : Index), s.flagsClear →
    (∃ u, exec (.jmp a) s = .next u ∧ u.flagsClear) ∧
    (∃ u, exec (.mov v t) s = .next u ∧ loadPending t u = true ∧ enablePending t u = false) ∧
    (∃ u, exec (.cop t) s = .next u ∧ enablePending t u = true ∧ loadPending t u = decide (t = .C) ∧
      loadPending .C u = true ∧ enablePending .C u = decide (t = .C)))

/-- R97: with both flags set a register absorbs the bus value and drives that value back, in one tick. -/
def Obligations.BothFlagsRebroadcast : Prop :=
  ∀ (r : Reg) (s : State), loadPending r s = true → enablePending r s = true →
    readReg r (tickReg r s) = s.bus ∧ (tickReg r s).bus = s.bus ∧
    loadPending r (tickReg r s) = false ∧ enablePending r (tickReg r s) = false

/-- R98: with no flag pending a register's tick changes nothing, and with all six flags 0 the tick changes nothing. -/
def Obligations.TickWithoutFlagsIsIdentity : Prop :=
  (∀ (r : Reg) (s : State), loadPending r s = false → enablePending r s = false → tickReg r s = s) ∧
  (∀ s : State, s.flagsClear → tick s = s)

/-- The whole tick in one equation, for all 64 combinations of the flags: A, then B, then C, each load before enable
(R94, R96). -/
def Obligations.TickInClosedForm : Prop :=
  ∀ s : State,
    let a := if s.ldA then s.bus else s.xA
    let bus1 := if s.enA then a else s.bus
    let b := if s.ldB then bus1 else s.xB
    let bus2 := if s.enB then b else bus1
    let c := if s.ldC then bus2 else s.xC
    let bus3 := if s.enC then c else bus2
    tick s = { s with bus := bus3, xA := a, xB := b, xC := c, ldA := false, ldB := false, ldC := false, enA := false,
                      enB := false, enC := false }

/-- After any handler that found the flags clear, the ticks of A and B commute: only "C last" can be observed (R95). -/
def Obligations.TicksOfAAndBCommute : Prop :=
  ∀ (s t : State) (i : Instr), s.flagsClear → exec i s = .next t →
    tickReg .A (tickReg .B t) = tickReg .B (tickReg .A t)

/-- R99: a `mov` that is the last instruction still delivers its value, and the run ends there with the pc absent and no
fault. -/
def Obligations.LastMovLandsAndEndsTheRun : Prop :=
  ∀ (s : State) (v : Byte) (t : Reg), s.running = true → s.pcAbsent = false → s.pcIdx.toNat + 1 = s.progLen.val →
    s.flagsClear → decode (Memory.readWord s.rom s.pcIdx) = .ok (.mov v t) →
    ∃ u, step s = .next u ∧ u.bus = v ∧ readReg t u = v ∧ RegsKeptBut [t] s u ∧ u.flagsClear ∧ u.running = false ∧
      u.pcAbsent = true ∧ u.pcIdx = s.pcIdx ∧ FaultKept s u ∧ ProgramKept s u ∧ ∀ n, Host.Core.run core n u = .next u

/-! ### The handlers: what each instruction does in step 2 of the cycle, its frame, and that it completes -/

/-- The handler of `mov v,t` (R110). Where the pc is absent or
at or past PROG_LEN, `PcAdvanced` is the model's choice and no rule's (DESIGN CHOICE, log entry 7). -/
def Obligations.MovHandler : Prop :=
  ∀ (s : State) (v : Byte) (t : Reg), ∃ u, exec (.mov v t) s = .next u ∧
    u.bus = v ∧ loadPending t u = true ∧ PcAdvanced s u ∧
    RegsKeptBut [] s u ∧ FlagsKeptBut [t] [] s u ∧ u.running = s.running ∧ FaultKept s u ∧ ProgramKept s u

/-- The handler of `mvc t`: the pc is held (R111). -/
def Obligations.MvcHandler : Prop :=
  ∀ (s : State) (t : Reg), ∃ u, exec (.mvc t) s = .next u ∧
    readReg t u = readReg .C s ∧ PcHeld s u ∧
    u.bus = s.bus ∧ RegsKeptBut [t] s u ∧ FlagsKeptBut [] [] s u ∧ u.running = s.running ∧ FaultKept s u ∧ ProgramKept s u

/-- The handler of `add t`: the sum modulo 256 (R120). Where the pc is absent or
at or past PROG_LEN, `PcAdvanced` is the model's choice and no rule's (DESIGN CHOICE, log entry 7). -/
def Obligations.AddHandler : Prop :=
  ∀ (s : State) (t : Reg), ∃ u, exec (.add t) s = .next u ∧
    (readReg .C u).toNat = ((readReg .C s).toNat + (readReg t s).toNat) % 256 ∧ PcAdvanced s u ∧
    u.bus = s.bus ∧ RegsKeptBut [.C] s u ∧ FlagsKeptBut [] [] s u ∧ u.running = s.running ∧ FaultKept s u ∧ ProgramKept s u

/-- The handler of `sub t`: the non-negative remainder modulo 256 of the difference, accumulator minus other (R121).
Where the pc is absent or at or past PROG_LEN, `PcAdvanced` is the model's choice and no rule's (DESIGN CHOICE, log entry 7). -/
def Obligations.SubHandler : Prop :=
  ∀ (s : State) (t : Reg), ∃ u, exec (.sub t) s = .next u ∧
    ((readReg .C u).toNat : Int) = (((readReg .C s).toNat : Int) - ((readReg t s).toNat : Int)) % 256 ∧ PcAdvanced s u ∧
    u.bus = s.bus ∧ RegsKeptBut [.C] s u ∧ FlagsKeptBut [] [] s u ∧ u.running = s.running ∧ FaultKept s u ∧ ProgramKept s u

/-- The handler of `cop t`: two flags and the pc; the transfer is the tick's (R112). Where the pc is absent or
at or past PROG_LEN, `PcAdvanced` is the model's choice and no rule's (DESIGN CHOICE, log entry 7). -/
def Obligations.CopHandler : Prop :=
  ∀ (s : State) (t : Reg), ∃ u, exec (.cop t) s = .next u ∧
    enablePending t u = true ∧ loadPending .C u = true ∧ PcAdvanced s u ∧
    u.bus = s.bus ∧ RegsKeptBut [] s u ∧ FlagsKeptBut [.C] [t] s u ∧ u.running = s.running ∧ FaultKept s u ∧ ProgramKept s u

/-- The handler of `jmp a`: the pc is the target, whatever it is (R130). -/
def Obligations.JmpHandler : Prop :=
  ∀ (s : State) (a : Index), ∃ u, exec (.jmp a) s = .next u ∧ PcIs a u ∧
    u.bus = s.bus ∧ RegsKeptBut [] s u ∧ FlagsKeptBut [] [] s u ∧ u.running = s.running ∧ FaultKept s u ∧ ProgramKept s u

/-- The handler of `jml v,a`: jump if `C < v`, unsigned (R132). Where the pc is absent or
at or past PROG_LEN, `PcAdvanced` (a jump not taken) is the model's choice and no rule's (DESIGN CHOICE, log entry 7). -/
def Obligations.JmlHandler : Prop :=
  ∀ (s : State) (v : Byte) (a : Index), ∃ u, exec (.jml v a) s = .next u ∧
    (if (readReg .C s).toNat < v.toNat then PcIs a u else PcAdvanced s u) ∧
    u.bus = s.bus ∧ RegsKeptBut [] s u ∧ FlagsKeptBut [] [] s u ∧ u.running = s.running ∧ FaultKept s u ∧ ProgramKept s u

/-- The handler of `jmg v,a`: jump if `C > v`, unsigned (R133). Where the pc is absent or
at or past PROG_LEN, `PcAdvanced` (a jump not taken) is the model's choice and no rule's (DESIGN CHOICE, log entry 7). -/
def Obligations.JmgHandler : Prop :=
  ∀ (s : State) (v : Byte) (a : Index), ∃ u, exec (.jmg v a) s = .next u ∧
    (if (readReg .C s).toNat > v.toNat then PcIs a u else PcAdvanced s u) ∧
    u.bus = s.bus ∧ RegsKeptBut [] s u ∧ FlagsKeptBut [] [] s u ∧ u.running = s.running ∧ FaultKept s u ∧ ProgramKept s u

/-- The handler of `jme v,a`: jump if `C = v` (R134). Where the pc is absent or
at or past PROG_LEN, `PcAdvanced` (a jump not taken) is the model's choice and no rule's (DESIGN CHOICE, log entry 7). -/
def Obligations.JmeHandler : Prop :=
  ∀ (s : State) (v : Byte) (a : Index), ∃ u, exec (.jme v a) s = .next u ∧
    (if readReg .C s = v then PcIs a u else PcAdvanced s u) ∧
    u.bus = s.bus ∧ RegsKeptBut [] s u ∧ FlagsKeptBut [] [] s u ∧ u.running = s.running ∧ FaultKept s u ∧ ProgramKept s u

/-- The handler of `hlt`: `running` is cleared, the pc is held (R140). -/
def Obligations.HltHandler : Prop :=
  ∀ s : State, ∃ u, exec .hlt s = .next u ∧ u.running = false ∧ PcHeld s u ∧
    u.bus = s.bus ∧ RegsKeptBut [] s u ∧ FlagsKeptBut [] [] s u ∧ FaultKept s u ∧ ProgramKept s u

/-- No handler raises a fault or touches the program memory: each of the ten completes in every state (R168). -/
def Obligations.HandlersRaiseNothing : Prop :=
  ∀ (i : Instr) (s : State), ∃ u, exec i s = .next u ∧ FaultKept s u ∧ ProgramKept s u

/-! ### Whole cycles of instructions -/

/-- The table of end-of-cycle effects (R102) is what the cycle of fetch, handler, tick and halt test does, for every
instruction. -/
def Obligations.CycleMatchesNetEffectTable : Prop :=
  ∀ (s : State) (i : Instr), s.running = true → s.flagsClear → s.pcAbsent = false → s.pcIdx.toNat < s.progLen.val →
    decode (Memory.readWord s.rom s.pcIdx) = .ok i → step s = .next (netEffect i s)

/-- The cycle of `cop t`: from A or B the register's value reaches the bus and C; `cop C` loads C from the old bus value
(R112, net effects). -/
def Obligations.CopCycle : Prop :=
  ∀ (s : State) (t : Reg), s.running = true → s.flagsClear → s.pcAbsent = false → s.pcIdx.toNat < s.progLen.val →
    decode (Memory.readWord s.rom s.pcIdx) = .ok (.cop t) →
    ∃ u, step s = .next u ∧
      (t ≠ .C → u.bus = readReg t s ∧ readReg .C u = readReg t s) ∧
      (t = .C → u.bus = s.bus ∧ readReg .C u = s.bus) ∧
      PcAdvanced s u ∧ u.running = !u.pcAbsent ∧ RegsKeptBut [.C] s u ∧ u.flagsClear ∧ FaultKept s u ∧ ProgramKept s u

/-- A reached `mvc` hangs: its first cycle copies C, and no later cycle changes anything, with `running` set for ever (R111). -/
def Obligations.MvcHangs : Prop :=
  ∀ (s : State) (t : Reg), s.running = true → s.flagsClear → s.pcAbsent = false → s.pcIdx.toNat < s.progLen.val →
    decode (Memory.readWord s.rom s.pcIdx) = .ok (.mvc t) →
    ∃ u, step s = .next u ∧ readReg t u = readReg .C s ∧ PcHeld s u ∧ u.running = true ∧ u.bus = s.bus ∧
      RegsKeptBut [t] s u ∧ FaultKept s u ∧ ProgramKept s u ∧ ∀ n, Host.Core.run core n u = .next u

/-- `sub t` after `add t`, with `t` not C, restores every register, across a wrap too (R123). -/
def Obligations.SubUndoesAdd : Prop :=
  ∀ (s : State) (t : Reg), t ≠ .C →
    ∃ u w, exec (.add t) s = .next u ∧ exec (.sub t) u = .next w ∧ ∀ r, readReg r w = readReg r s

/-- A taken jump to a missing index completes, and the fetch of the next cycle raises AddressError with that index; a jump not
taken raises nothing, whatever its target (R135). -/
def Obligations.MissingTargetFaultsAtNextFetch : Prop :=
  ∀ (s : State) (i : Instr) (v : Byte) (a : Index), s.running = true → s.pcAbsent = false →
    s.pcIdx.toNat < s.progLen.val → decode (Memory.readWord s.rom s.pcIdx) = .ok i →
    ((i = .jmp a ∨ (i = .jml v a ∧ (readReg .C s).toNat < v.toNat) ∨ (i = .jmg v a ∧ (readReg .C s).toNat > v.toNat) ∨
        (i = .jme v a ∧ readReg .C s = v)) → s.progLen.val ≤ a.toNat →
      ∃ u w, step s = .next u ∧ PcIs a u ∧ u.running = true ∧ FaultKept s u ∧
        step u = .next w ∧ w.running = false ∧ w.fault = 1 ∧ w.faultAddr = a ∧ PcIs a w) ∧
    (((i = .jml v a ∧ ¬ (readReg .C s).toNat < v.toNat) ∨ (i = .jmg v a ∧ ¬ (readReg .C s).toNat > v.toNat) ∨
        (i = .jme v a ∧ readReg .C s ≠ v)) →
      ∃ u, step s = .next u ∧ PcAdvanced s u ∧ u.running = !u.pcAbsent ∧ FaultKept s u)

/-- Every machine cycle answers a next state, a faulting one too. That a fault is a next state with the fault recorded (R151),
not a fault outcome, is the model's choice (log entry 5); so is what a running state with an absent pc does (log entry 6). -/
def Obligations.EveryCycleAnswersNext : Prop :=
  ∀ s : State, ∃ u, step s = .next u

/-! ### Invariants and whole-machine rules -/

/-- The invariant holds right after reset, for every program memory in canonical form and every INIT, and at `State.reset`. -/
def Obligations.ResetMeetsInvariant : Prop :=
  State.reset.Inv ∧
  ∀ (init : Config.Init) (rom : Memory) (n : Fin 257), Memory.wf rom → (∀ c ∈ rom, c.1 < Config.wordBytes * n.val) →
    (hostReset init rom n).Inv

/-- Every machine cycle keeps the invariant: flags clear at the boundary, a running machine has a pc and no fault, a faulted one
keeps its address, an absent pc stands after the last instruction, the image canonical (R18, R23, R100). -/
def Obligations.StepKeepsInvariant : Prop :=
  ∀ s u : State, s.Inv → step s = .next u → u.Inv

/-- R14: which handlers set a flag, that no handler clears one, and that a register's tick clears both of its flags. -/
def Obligations.FlagsAreSetByMovAndCopOnly : Prop :=
  (∀ (i : Instr) (s u : State) (r : Reg), exec i s = .next u →
    (loadPending r u = true ↔ loadPending r s = true ∨ (∃ v, i = .mov v r) ∨ (∃ t, i = .cop t ∧ r = .C)) ∧
    (enablePending r u = true ↔ enablePending r s = true ∨ i = .cop r)) ∧
  (∀ (r r' : Reg) (s : State),
    loadPending r' (tickReg r s) = (if r' = r then false else loadPending r' s) ∧
    enablePending r' (tickReg r s) = (if r' = r then false else enablePending r' s)) ∧
  (∀ s : State, ∃ u, exec (.cop .C) s = .next u ∧ loadPending .C u = true ∧ enablePending .C u = true)

/-- A cycle that runs an instruction ends with all six flags 0, whatever they were before (R18). -/
def Obligations.CycleEndsWithFlagsClear : Prop :=
  ∀ (s u : State) (i : Instr), s.running = true → fetchInstr s = .ok i → step s = .next u → u.flagsClear

/-- R41: no run, of any length, changes the program memory or its length. -/
def Obligations.ProgramMemoryIsReadOnly : Prop :=
  ∀ (n : Nat) (s u : State), Host.Core.run core n s = .next u → u.rom = s.rom ∧ u.progLen = s.progLen

/-- R11: the writers and the readers of the bus: a handler's result but for the bus does not depend on it; and the host sees it. -/
def Obligations.BusWritersAndReaders : Prop :=
  (∀ (i : Instr) (s u : State), exec i s = .next u →
    ((∃ v t, i = .mov v t ∧ u.bus = v) ∨ ((∀ v t, i ≠ .mov v t) ∧ u.bus = s.bus)) ∧
    (∀ b, ∃ w, exec i { s with bus := b } = .next w ∧ { w with bus := u.bus } = u)) ∧
  (∀ (r : Reg) (s : State),
    (tickReg r s).bus = (if enablePending r s then readReg r (tickReg r s) else s.bus) ∧
    (loadPending r s = true → readReg r (tickReg r s) = s.bus) ∧
    (loadPending r s = false → ∀ b r', readReg r' (tickReg r { s with bus := b }) = readReg r' s)) ∧
  (∀ s : State, s.outputs.bus = s.bus)

/-- In a cycle that starts with the flags clear there is at most one writer of the bus: at most one enable is pending after the
handler, and none where the handler wrote the bus (R12). -/
def Obligations.AtMostOneBusWriter : Prop :=
  ∀ (i : Instr) (s u : State), s.flagsClear → exec i s = .next u →
    (∀ r r', enablePending r u = true → enablePending r' u = true → r = r') ∧
    ((∃ v t, i = .mov v t) → ∀ r, enablePending r u = false)

/-- What clears `running` and what sets it (R24, for a running state with a pc). What a running state with an absent pc does is the
model's choice and no rule's (log entry 6). -/
def Obligations.RunningIsClearedByHaltEndOrFault : Prop :=
  (∀ s u : State, step s = .next u →
    (u.running = true → s.running = true) ∧ (s.running = false → u = s) ∧
    (s.running = true →
      (u.running = false ↔ fetchInstr s = .ok .hlt ∨ (∃ i, fetchInstr s = .ok i ∧ u.pcAbsent = true) ∨
        ∃ f, fetchInstr s = .error f))) ∧
  (∀ init rom n, (hostReset init rom n).running = true ↔ n.val ≠ 0)

/-- The fault registers are written together, by the fault mechanism alone, 0 at reset and kept once a fault is recorded (R25, R26,
for a running state with a pc). That a running state with an absent pc raises AddressError is the model's choice and no rule's
(log entry 6). -/
def Obligations.FaultRegistersAreWrittenOnce : Prop :=
  (Fault.code .addressError = 1 ∧ Fault.code .unknownOpcode = 2 ∧ Fault.code .formatError = 3) ∧
  (∀ init rom n, (hostReset init rom n).fault = 0 ∧ (hostReset init rom n).faultAddr = 0) ∧
  (∀ s u : State, step s = .next u →
    (u.fault = s.fault ∧ u.faultAddr = s.faultAddr) ∨
    (s.running = true ∧ u.running = false ∧
      ∃ f, fetchInstr s = .error f ∧ u.fault = Fault.code f ∧ u.faultAddr = s.pcIdx)) ∧
  (∀ s : State, s.Inv → s.fault ≠ 0 → ∀ n, Host.Core.run core n s = .next s)

/-- A run ends in exactly one of three ways (R100): at an `hlt` with its address in the pc, at the natural end with the pc absent, or
at a fault with the faulting address in the pc. -/
def Obligations.RunEndsInOneOfThreeWays : Prop :=
  ∀ s u : State, s.Inv → s.running = true → step s = .next u → u.running = false →
    (u.status = .halted ∧ fetchInstr s = .ok .hlt ∧ u.fault = 0 ∧ u.pcAbsent = false ∧ u.pcIdx = s.pcIdx) ∨
    (u.status = .ended ∧ u.fault = 0 ∧ u.pcAbsent = true ∧ u.pcIdx.toNat + 1 = u.progLen.val) ∨
    (∃ f, u.status = .faulted f ∧ fetchInstr s = .error f ∧ u.fault = Fault.code f ∧ u.pcAbsent = false ∧
      u.pcIdx = u.faultAddr)

/-- A running machine comes to an index with no instruction by a taken jump to it and in no other way (R152). What a running state with an absent
pc does is the model's choice (log entry 6). -/
def Obligations.AddressErrorNeedsATakenJump : Prop :=
  (∀ s u : State, s.running = true → step s = .next u → u.running = true → u.progLen.val ≤ u.pcIdx.toNat →
    fetchInstr s = .ok (.jmp u.pcIdx) ∨
    ∃ v, (fetchInstr s = .ok (.jml v u.pcIdx) ∧ (readReg .C s).toNat < v.toNat) ∨
      (fetchInstr s = .ok (.jmg v u.pcIdx) ∧ (readReg .C s).toNat > v.toNat) ∨
      (fetchInstr s = .ok (.jme v u.pcIdx) ∧ readReg .C s = v)) ∧
  (∀ init rom n, (hostReset init rom n).running = true →
    (hostReset init rom n).pcIdx.toNat < (hostReset init rom n).progLen.val)

/-- A and B change by `mov`, to its immediate, and by `mvc`, to C, and in no other way (R113). What a running state with an absent
pc does is the model's choice (log entry 6). -/
def Obligations.AAndBChangeByMovAndMvcOnly : Prop :=
  ∀ (s u : State) (r : Reg), r ≠ .C → s.flagsClear → step s = .next u → readReg r u ≠ readReg r s →
    (∃ v, fetchInstr s = .ok (.mov v r) ∧ readReg r u = v) ∨
    (fetchInstr s = .ok (.mvc r) ∧ readReg r u = readReg .C s)

/-- A cycle depends on the program memory through the word at the pc and its length alone (R52). What a running state with an absent
pc does is the model's choice (log entry 6). -/
def Obligations.StepReadsOnlyTheFetchedWord : Prop :=
  ∀ (s u : State) (m : Memory), Memory.readWord m s.pcIdx = Memory.readWord s.rom s.pcIdx → step s = .next u →
    step { s with rom := m } = .next { u with rom := m }

/-! ### Reset and the host's actions -/

/-- R29: the state after reset, field by field, for every program memory and every INIT; and the defaults of INIT. -/
def Obligations.ResetState : Prop :=
  (∀ (init : Config.Init) (rom : Memory) (n : Fin 257),
    let s := hostReset init rom n
    readReg .A s = init.a ∧ readReg .B s = init.b ∧ readReg .C s = init.c ∧ s.bus = init.bus ∧ s.flagsClear ∧
    s.pcIdx = 0 ∧ (s.pcAbsent = true ↔ n.val = 0) ∧ (s.running = true ↔ 1 ≤ n.val) ∧ s.fault = 0 ∧ s.faultAddr = 0x00 ∧
    s.progLen = n ∧ s.rom = rom) ∧
  ({} : Config.Init) = { a := 0x00, b := 0x00, c := 0x00, bus := 0x00 }

/-- R181: the first cycle after reset fetches index 0; with an empty program the machine comes out of reset Halted, without a
fault, and stays so. -/
def Obligations.FirstFetchAfterReset : Prop :=
  ∀ (init : Config.Init) (rom : Memory) (n : Fin 257),
    (1 ≤ n.val → (hostReset init rom n).running = true ∧ fetch (hostReset init rom n) = .ok (Memory.readWord rom 0)) ∧
    (n.val = 0 → (hostReset init rom n).running = false ∧ (hostReset init rom n).fault = 0 ∧
      ∀ k, Host.Core.run core k (hostReset init rom n) = .next (hostReset init rom n))

/-- `State.reset` is the reset of the empty program with the default INIT, and no run leaves it. That nothing is placed there is the
model's choice (log entries 3 and 4). -/
def Obligations.ModelResetIsTheEmptyProgram : Prop :=
  State.reset = hostReset {} [] 0 ∧ ∀ n, Host.Core.run core n State.reset = .next State.reset

/-- A clock edge with `rst` gives, from any state, the same outputs and the word at index 0 on `rom_data` (R30, R180); the
program memory stays (log entry 11). -/
def Obligations.ResetPortRestartsTheMachine : Prop :=
  ∀ (init : Config.Init) (s : State), 1 ≤ s.progLen.val →
    ∃ u, clockEdge init true s = .next u ∧ ProgramKept s u ∧ u.flagsClear ∧
      u.outputs = { romAddr := 0, bus := init.bus, a := init.a, b := init.b, c := init.c, pc := 0, pcAbsent := false,
                    running := true, fault := 0, faultAddr := 0 } ∧
      u.romData = some (Memory.readWord s.rom 0)

/-- A program of at most 256 words, and no longer one, boots: the state meets the invariant and every index reads back its
word (R182, R42). -/
def Obligations.BootedProgramReadsBack : Prop :=
  ∀ (init : Config.Init) (ws : List Word),
    (ws.length ≤ 256 → ∃ s, bootWith init ws = some s ∧ s.Inv ∧ s.progLen.val = ws.length ∧
      ∀ i : Index, memRead i s = ws[i.toNat]?) ∧
    (256 < ws.length → bootWith init ws = none)

/-- The words of an assembled program decode, line by line, to what its lines stand for, with every label of the program at its
own index; the index of a label that is none is the program's length (R43, R86; the last clause log entry 9). -/
def Obligations.AssembledProgramDecodes : Prop :=
  ∀ (α : Type) [DecidableEq α] (p : List (α × SourceInstr α)) (ws : List Word), assemble p = some ws →
    ws.length = p.length ∧
    (∀ (k : Nat) (line : α × SourceInstr α), p[k]? = some line →
      ∃ w d, ws[k]? = some w ∧ resolve (p.map Prod.fst) line.2 = some d ∧ decode w = d) ∧
    (∀ (k : Nat) (line : α × SourceInstr α), p[k]? = some line →
      ∃ j, labelIndex (p.map Prod.fst) line.1 = some j ∧ j.toNat = k) ∧
    (∀ (l : α) (j : Index), l ∉ p.map Prod.fst → labelIndex (p.map Prod.fst) l = some j → j.toNat = p.length)

/-- An instruction placed where the machine fetches is what the next cycle runs (the host's hook, log entry 10). -/
def Obligations.PlacedInstructionIsFetched : Prop :=
  ∀ (s : State) (nbits w : Nat) (i : Instr), Memory.wf s.rom → decodeTableWord nbits w = some i →
    (s.withFetchWord nbits w).running = true ∧ fetchInstr (s.withFetchWord nbits w) = .ok i

/-! ### Refinement: the machine over decoded instructions -/

/-- One cycle, seen without flags and over the decoded program, is one cycle of the decoded machine (R9, R18). -/
def Obligations.DecodedMachineSimulatesStep : Prop :=
  ∀ s u : State, s.Inv → step s = .next u → u.decodedView = decodedStep s.decodedProgram s.decodedView

/-- The same over runs of any length: every run completes, and the decoded machine makes it too (R9, R18). -/
def Obligations.DecodedMachineSimulatesRuns : Prop :=
  ∀ (n : Nat) (s : State), s.Inv →
    ∃ u : State, Host.Core.run core n s = .next u ∧ u.decodedView = (decodedStep s.decodedProgram)^[n] s.decodedView
end

