-- ==== Sys2Proof/Laws/State.lean ====
section
/-! SUPPORT. What each update of the state leaves in each field, once per field and update, for simp; no later proof unfolds an
update. The updates are those of Machine/Operands.lean, Machine/Flags.lean and the pc, fault and halt operations of
Machine/Ops.lean. -/

namespace Sys2Proof.Machine

variable (s : State) (r r' : Reg) (v : Byte) (b : Bool) (a : Index) (f : Fault) (p : Option Index)

/-! ### Register and flag accesses over a register's own update -/

@[simp] theorem readReg_writeReg : readReg r' (writeReg r v s) = if r' = r then v else readReg r' s := by
  cases r <;> cases r' <;> rfl

@[simp] theorem loadPending_setLoad : loadPending r' (setLoad r b s) = if r' = r then b else loadPending r' s := by
  cases r <;> cases r' <;> rfl

@[simp] theorem enablePending_setEnable :
    enablePending r' (setEnable r b s) = if r' = r then b else enablePending r' s := by
  cases r <;> cases r' <;> rfl

@[simp] theorem writeBus_bus : (writeBus v s).bus = v := rfl

/-! ### The pc -/

@[simp] theorem writePc_some_pcIdx : (writePc (some a) s).pcIdx = a := rfl
@[simp] theorem writePc_none_pcIdx : (writePc none s).pcIdx = s.pcIdx := rfl
@[simp] theorem writePc_some_pcAbsent : (writePc (some a) s).pcAbsent = false := rfl
@[simp] theorem writePc_none_pcAbsent : (writePc none s).pcAbsent = true := rfl
@[simp] theorem jumpTo_pcIdx : (jumpTo a s).pcIdx = a := rfl
@[simp] theorem jumpTo_pcAbsent : (jumpTo a s).pcAbsent = false := rfl

/-! ### Taking a fault and the halt test -/

@[simp] theorem raise_running : (raise f s).running = false := rfl
@[simp] theorem raise_fault : (raise f s).fault = f.code := rfl
@[simp] theorem raise_faultAddr : (raise f s).faultAddr = s.pcIdx := rfl
@[simp] theorem haltTest_running : (haltTest s).running = (s.running && !s.pcAbsent) := by
  unfold haltTest; cases h : s.pcAbsent <;> simp

/-! ### Everything else is as it was -/

@[simp] theorem writeReg_bus : (writeReg r v s).bus = s.bus := by cases r <;> rfl
@[simp] theorem loadPending_writeReg : loadPending r' (writeReg r v s) = loadPending r' s := by cases r <;> cases r' <;> rfl
@[simp] theorem enablePending_writeReg : enablePending r' (writeReg r v s) = enablePending r' s := by cases r <;> cases r' <;> rfl
@[simp] theorem writeReg_pcIdx : (writeReg r v s).pcIdx = s.pcIdx := by cases r <;> rfl
@[simp] theorem writeReg_pcAbsent : (writeReg r v s).pcAbsent = s.pcAbsent := by cases r <;> rfl
@[simp] theorem writeReg_running : (writeReg r v s).running = s.running := by cases r <;> rfl
@[simp] theorem writeReg_fault : (writeReg r v s).fault = s.fault := by cases r <;> rfl
@[simp] theorem writeReg_faultAddr : (writeReg r v s).faultAddr = s.faultAddr := by cases r <;> rfl
@[simp] theorem writeReg_progLen : (writeReg r v s).progLen = s.progLen := by cases r <;> rfl
@[simp] theorem writeReg_rom : (writeReg r v s).rom = s.rom := by cases r <;> rfl

@[simp] theorem readReg_writeBus : readReg r' (writeBus v s) = readReg r' s := by cases r' <;> rfl
@[simp] theorem loadPending_writeBus : loadPending r' (writeBus v s) = loadPending r' s := by cases r' <;> rfl
@[simp] theorem enablePending_writeBus : enablePending r' (writeBus v s) = enablePending r' s := by cases r' <;> rfl
@[simp] theorem writeBus_pcIdx : (writeBus v s).pcIdx = s.pcIdx := rfl
@[simp] theorem writeBus_pcAbsent : (writeBus v s).pcAbsent = s.pcAbsent := rfl
@[simp] theorem writeBus_running : (writeBus v s).running = s.running := rfl
@[simp] theorem writeBus_fault : (writeBus v s).fault = s.fault := rfl
@[simp] theorem writeBus_faultAddr : (writeBus v s).faultAddr = s.faultAddr := rfl
@[simp] theorem writeBus_progLen : (writeBus v s).progLen = s.progLen := rfl
@[simp] theorem writeBus_rom : (writeBus v s).rom = s.rom := rfl

@[simp] theorem writePc_bus : (writePc p s).bus = s.bus := by cases p <;> rfl
@[simp] theorem readReg_writePc : readReg r' (writePc p s) = readReg r' s := by cases p <;> cases r' <;> rfl
@[simp] theorem loadPending_writePc : loadPending r' (writePc p s) = loadPending r' s := by cases p <;> cases r' <;> rfl
@[simp] theorem enablePending_writePc : enablePending r' (writePc p s) = enablePending r' s := by cases p <;> cases r' <;> rfl
@[simp] theorem writePc_running : (writePc p s).running = s.running := by cases p <;> rfl
@[simp] theorem writePc_fault : (writePc p s).fault = s.fault := by cases p <;> rfl
@[simp] theorem writePc_faultAddr : (writePc p s).faultAddr = s.faultAddr := by cases p <;> rfl
@[simp] theorem writePc_progLen : (writePc p s).progLen = s.progLen := by cases p <;> rfl
@[simp] theorem writePc_rom : (writePc p s).rom = s.rom := by cases p <;> rfl

@[simp] theorem setLoad_bus : (setLoad r b s).bus = s.bus := by cases r <;> rfl
@[simp] theorem readReg_setLoad : readReg r' (setLoad r b s) = readReg r' s := by cases r <;> cases r' <;> rfl
@[simp] theorem enablePending_setLoad : enablePending r' (setLoad r b s) = enablePending r' s := by cases r <;> cases r' <;> rfl
@[simp] theorem setLoad_pcIdx : (setLoad r b s).pcIdx = s.pcIdx := by cases r <;> rfl
@[simp] theorem setLoad_pcAbsent : (setLoad r b s).pcAbsent = s.pcAbsent := by cases r <;> rfl
@[simp] theorem setLoad_running : (setLoad r b s).running = s.running := by cases r <;> rfl
@[simp] theorem setLoad_fault : (setLoad r b s).fault = s.fault := by cases r <;> rfl
@[simp] theorem setLoad_faultAddr : (setLoad r b s).faultAddr = s.faultAddr := by cases r <;> rfl
@[simp] theorem setLoad_progLen : (setLoad r b s).progLen = s.progLen := by cases r <;> rfl
@[simp] theorem setLoad_rom : (setLoad r b s).rom = s.rom := by cases r <;> rfl

@[simp] theorem setEnable_bus : (setEnable r b s).bus = s.bus := by cases r <;> rfl
@[simp] theorem readReg_setEnable : readReg r' (setEnable r b s) = readReg r' s := by cases r <;> cases r' <;> rfl
@[simp] theorem loadPending_setEnable : loadPending r' (setEnable r b s) = loadPending r' s := by cases r <;> cases r' <;> rfl
@[simp] theorem setEnable_pcIdx : (setEnable r b s).pcIdx = s.pcIdx := by cases r <;> rfl
@[simp] theorem setEnable_pcAbsent : (setEnable r b s).pcAbsent = s.pcAbsent := by cases r <;> rfl
@[simp] theorem setEnable_running : (setEnable r b s).running = s.running := by cases r <;> rfl
@[simp] theorem setEnable_fault : (setEnable r b s).fault = s.fault := by cases r <;> rfl
@[simp] theorem setEnable_faultAddr : (setEnable r b s).faultAddr = s.faultAddr := by cases r <;> rfl
@[simp] theorem setEnable_progLen : (setEnable r b s).progLen = s.progLen := by cases r <;> rfl
@[simp] theorem setEnable_rom : (setEnable r b s).rom = s.rom := by cases r <;> rfl

@[simp] theorem advance_bus : (advance s).bus = s.bus := by simp [advance]
@[simp] theorem readReg_advance : readReg r' (advance s) = readReg r' s := by simp [advance]
@[simp] theorem loadPending_advance : loadPending r' (advance s) = loadPending r' s := by simp [advance]
@[simp] theorem enablePending_advance : enablePending r' (advance s) = enablePending r' s := by simp [advance]
@[simp] theorem advance_running : (advance s).running = s.running := by simp [advance]
@[simp] theorem advance_fault : (advance s).fault = s.fault := by simp [advance]
@[simp] theorem advance_faultAddr : (advance s).faultAddr = s.faultAddr := by simp [advance]
@[simp] theorem advance_progLen : (advance s).progLen = s.progLen := by simp [advance]
@[simp] theorem advance_rom : (advance s).rom = s.rom := by simp [advance]

@[simp] theorem jumpTo_bus : (jumpTo a s).bus = s.bus := rfl
@[simp] theorem readReg_jumpTo : readReg r' (jumpTo a s) = readReg r' s := by cases r' <;> rfl
@[simp] theorem loadPending_jumpTo : loadPending r' (jumpTo a s) = loadPending r' s := by cases r' <;> rfl
@[simp] theorem enablePending_jumpTo : enablePending r' (jumpTo a s) = enablePending r' s := by cases r' <;> rfl
@[simp] theorem jumpTo_running : (jumpTo a s).running = s.running := rfl
@[simp] theorem jumpTo_fault : (jumpTo a s).fault = s.fault := rfl
@[simp] theorem jumpTo_faultAddr : (jumpTo a s).faultAddr = s.faultAddr := rfl
@[simp] theorem jumpTo_progLen : (jumpTo a s).progLen = s.progLen := rfl
@[simp] theorem jumpTo_rom : (jumpTo a s).rom = s.rom := rfl

@[simp] theorem branch_bus : (branch b a s).bus = s.bus := by cases b <;> simp [branch]
@[simp] theorem readReg_branch : readReg r' (branch b a s) = readReg r' s := by cases b <;> simp [branch]
@[simp] theorem loadPending_branch : loadPending r' (branch b a s) = loadPending r' s := by cases b <;> simp [branch]
@[simp] theorem enablePending_branch : enablePending r' (branch b a s) = enablePending r' s := by cases b <;> simp [branch]
@[simp] theorem branch_running : (branch b a s).running = s.running := by cases b <;> simp [branch]
@[simp] theorem branch_fault : (branch b a s).fault = s.fault := by cases b <;> simp [branch]
@[simp] theorem branch_faultAddr : (branch b a s).faultAddr = s.faultAddr := by cases b <;> simp [branch]
@[simp] theorem branch_progLen : (branch b a s).progLen = s.progLen := by cases b <;> simp [branch]
@[simp] theorem branch_rom : (branch b a s).rom = s.rom := by cases b <;> simp [branch]

@[simp] theorem raise_bus : (raise f s).bus = s.bus := rfl
@[simp] theorem readReg_raise : readReg r' (raise f s) = readReg r' s := by cases r' <;> rfl
@[simp] theorem loadPending_raise : loadPending r' (raise f s) = loadPending r' s := by cases r' <;> rfl
@[simp] theorem enablePending_raise : enablePending r' (raise f s) = enablePending r' s := by cases r' <;> rfl
@[simp] theorem raise_pcIdx : (raise f s).pcIdx = s.pcIdx := rfl
@[simp] theorem raise_pcAbsent : (raise f s).pcAbsent = s.pcAbsent := rfl
@[simp] theorem raise_progLen : (raise f s).progLen = s.progLen := rfl
@[simp] theorem raise_rom : (raise f s).rom = s.rom := rfl

@[simp] theorem haltTest_bus : (haltTest s).bus = s.bus := by unfold haltTest; split <;> rfl
@[simp] theorem readReg_haltTest : readReg r' (haltTest s) = readReg r' s := by unfold haltTest; split <;> cases r' <;> rfl
@[simp] theorem loadPending_haltTest : loadPending r' (haltTest s) = loadPending r' s := by unfold haltTest; split <;> cases r' <;> rfl
@[simp] theorem enablePending_haltTest : enablePending r' (haltTest s) = enablePending r' s := by unfold haltTest; split <;> cases r' <;> rfl
@[simp] theorem haltTest_pcIdx : (haltTest s).pcIdx = s.pcIdx := by unfold haltTest; split <;> rfl
@[simp] theorem haltTest_pcAbsent : (haltTest s).pcAbsent = s.pcAbsent := by unfold haltTest; split <;> rfl
@[simp] theorem haltTest_fault : (haltTest s).fault = s.fault := by unfold haltTest; split <;> rfl
@[simp] theorem haltTest_faultAddr : (haltTest s).faultAddr = s.faultAddr := by unfold haltTest; split <;> rfl
@[simp] theorem haltTest_progLen : (haltTest s).progLen = s.progLen := by unfold haltTest; split <;> rfl
@[simp] theorem haltTest_rom : (haltTest s).rom = s.rom := by unfold haltTest; split <;> rfl

/-! ### The register fields themselves, where no register is written -/

@[simp] theorem writeBus_xA : (writeBus v s).xA = s.xA := rfl
@[simp] theorem writeBus_xB : (writeBus v s).xB = s.xB := rfl
@[simp] theorem writeBus_xC : (writeBus v s).xC = s.xC := rfl

@[simp] theorem writePc_xA : (writePc p s).xA = s.xA := by cases p <;> rfl
@[simp] theorem writePc_xB : (writePc p s).xB = s.xB := by cases p <;> rfl
@[simp] theorem writePc_xC : (writePc p s).xC = s.xC := by cases p <;> rfl

@[simp] theorem advance_xA : (advance s).xA = s.xA := by simp [advance]
@[simp] theorem advance_xB : (advance s).xB = s.xB := by simp [advance]
@[simp] theorem advance_xC : (advance s).xC = s.xC := by simp [advance]

@[simp] theorem jumpTo_xA : (jumpTo a s).xA = s.xA := rfl
@[simp] theorem jumpTo_xB : (jumpTo a s).xB = s.xB := rfl
@[simp] theorem jumpTo_xC : (jumpTo a s).xC = s.xC := rfl

@[simp] theorem branch_xA : (branch b a s).xA = s.xA := by cases b <;> simp [branch]
@[simp] theorem branch_xB : (branch b a s).xB = s.xB := by cases b <;> simp [branch]
@[simp] theorem branch_xC : (branch b a s).xC = s.xC := by cases b <;> simp [branch]

@[simp] theorem raise_xA : (raise f s).xA = s.xA := rfl
@[simp] theorem raise_xB : (raise f s).xB = s.xB := rfl
@[simp] theorem raise_xC : (raise f s).xC = s.xC := rfl

@[simp] theorem haltTest_xA : (haltTest s).xA = s.xA := by unfold haltTest; split <;> rfl
@[simp] theorem haltTest_xB : (haltTest s).xB = s.xB := by unfold haltTest; split <;> rfl
@[simp] theorem haltTest_xC : (haltTest s).xC = s.xC := by unfold haltTest; split <;> rfl

/-! ### Two states are equal when all they show is -/

/-- State extensionality through the accessors the statements use. -/
theorem State.ext_view {s u : State} (hbus : u.bus = s.bus) (hreg : ∀ r, readReg r u = readReg r s)
    (hload : ∀ r, loadPending r u = loadPending r s) (henable : ∀ r, enablePending r u = enablePending r s)
    (hpcIdx : u.pcIdx = s.pcIdx) (hpcAbsent : u.pcAbsent = s.pcAbsent) (hrunning : u.running = s.running)
    (hfault : u.fault = s.fault) (hfaultAddr : u.faultAddr = s.faultAddr) (hprogLen : u.progLen = s.progLen)
    (hrom : u.rom = s.rom) : u = s := by
  obtain ⟨_, _, _, _, _, _, _, _, _, _, _, _, _, _, _, _, _⟩ := s
  obtain ⟨_, _, _, _, _, _, _, _, _, _, _, _, _, _, _, _, _⟩ := u
  have := hreg .A; have := hreg .B; have := hreg .C
  have := hload .A; have := hload .B; have := hload .C
  have := henable .A; have := henable .B; have := henable .C
  simp_all [readReg, loadPending, enablePending]

/-- The flags of `s` are clear exactly when no register's flag is pending. -/
theorem flagsClear_iff {s : State} :
    s.flagsClear ↔ (∀ r, loadPending r s = false) ∧ (∀ r, enablePending r s = false) := by
  constructor
  · rintro ⟨h1, h2, h3, h4, h5, h6⟩
    exact ⟨fun r => by cases r <;> assumption, fun r => by cases r <;> assumption⟩
  · rintro ⟨h, k⟩
    exact ⟨h .A, h .B, h .C, k .A, k .B, k .C⟩

end Sys2Proof.Machine
end

