-- ==== Sys2Proof/Laws/Memory.lean ====
section
/-! SUPPORT. The laws of the program image: every memory operation keeps the canonical form, a read after a write, and that
images that read alike are equal. -/

namespace Sys2Proof.Machine

theorem Memory.wf_nil : Memory.wf [] := ⟨List.Pairwise.nil, by simp⟩

theorem Memory.wf_tail {c : Host.Cell} {m : Memory} (h : Memory.wf (c :: m)) : Memory.wf m :=
  ⟨(List.pairwise_cons.1 h.1).2, fun d hd => h.2 d (List.mem_cons_of_mem _ hd)⟩

/-- Below every listed address a read finds nothing. -/
theorem Memory.read_of_lt {m : Memory} {a : Nat} (h : ∀ c ∈ m, a < c.1) : Memory.read m a = Memory.unlisted := by
  induction m with
  | nil => rfl
  | cons c rest ih =>
    obtain ⟨k, v⟩ := c
    have hk : k ≠ a := Nat.ne_of_gt (h (k, v) (List.mem_cons_self ..))
    simp only [Memory.read, hk, if_false]
    exact ih fun d hd => h d (List.mem_cons_of_mem _ hd)

/-- A cell of a written image was there before or is the one written. -/
theorem Memory.mem_write {m : Memory} {a : Nat} {b : Byte} {c : Host.Cell} (h : c ∈ Memory.write m a b) :
    c ∈ m ∨ (c = (a, b) ∧ b ≠ Memory.unlisted) := by
  induction m with
  | nil =>
    simp only [Memory.write] at h
    split at h
    · simp at h
    · simp_all
  | cons d rest ih =>
    obtain ⟨k, v⟩ := d
    simp only [Memory.write] at h
    split at h
    · split at h <;> (simp_all; try tauto)
    · split at h
      · split at h
        · exact .inl (List.mem_cons_of_mem _ h)
        · rcases List.mem_cons.1 h with h | h
          · exact .inr ⟨h, ‹_›⟩
          · exact .inl (List.mem_cons_of_mem _ h)
      · rcases List.mem_cons.1 h with h | h
        · exact .inl (h ▸ List.mem_cons_self ..)
        · exact (ih h).imp (List.mem_cons_of_mem _) id

/-- A write inside the image keeps the canonical form. -/
theorem Memory.wf_write {m : Memory} {a : Nat} {b : Byte} (h : Memory.wf m) (ha : a < Memory.size) :
    Memory.wf (Memory.write m a b) := by
  refine ⟨?_, fun c hc => ?_⟩
  · induction m with
    | nil => simp only [Memory.write]; split <;> simp
    | cons d rest ih =>
      obtain ⟨k, v⟩ := d
      have hp := List.pairwise_cons.1 h.1
      simp only [Memory.write]
      split
      · rename_i hlt
        split
        · exact h.1
        · refine List.pairwise_cons.2 ⟨fun c hc => ?_, h.1⟩
          rcases List.mem_cons.1 hc with rfl | hc
          · exact hlt
          · exact Nat.lt_trans hlt (hp.1 c hc)
      · split
        · split
          · exact hp.2
          · rename_i hak _
            exact List.pairwise_cons.2 ⟨fun c hc => by simpa [hak] using hp.1 c hc, hp.2⟩
        · refine List.pairwise_cons.2 ⟨fun c hc => ?_, ih (Memory.wf_tail h)⟩
          rcases Memory.mem_write hc with hc | ⟨rfl, _⟩
          · exact hp.1 c hc
          · show k < a
            omega
  · rcases Memory.mem_write hc with hc | ⟨rfl, hb⟩
    · exact h.2 c hc
    · exact ⟨ha, hb⟩

/-- A write leaves every other byte alone. -/
theorem Memory.read_write_other {m : Memory} {a a' : Nat} {b : Byte} (h : a' ≠ a) :
    Memory.read (Memory.write m a b) a' = Memory.read m a' := by
  induction m with
  | nil => simp only [Memory.write]; split <;> simp [Memory.read, Ne.symm h]
  | cons d rest ih =>
    obtain ⟨k, v⟩ := d
    simp only [Memory.write]
    split
    · split <;> simp [Memory.read, Ne.symm h]
    · split
      · rename_i hak
        subst hak
        split <;> simp [Memory.read, Ne.symm h]
      · simp only [Memory.read, ih]

/-- A read after a write of the same byte gives the value written. -/
theorem Memory.read_write_same {m : Memory} {a : Nat} {b : Byte} (h : Memory.wf m) :
    Memory.read (Memory.write m a b) a = b := by
  induction m with
  | nil => simp only [Memory.write]; split <;> simp_all [Memory.read]
  | cons d rest ih =>
    obtain ⟨k, v⟩ := d
    have hp := List.pairwise_cons.1 h.1
    simp only [Memory.write]
    split
    · rename_i hlt
      split
      · rename_i hb
        rw [hb]
        refine Memory.read_of_lt fun c hc => ?_
        rcases List.mem_cons.1 hc with rfl | hc
        · exact hlt
        · exact Nat.lt_trans hlt (hp.1 c hc)
      · simp [Memory.read]
    · split
      · rename_i hak
        subst hak
        split
        · rename_i hb
          rw [hb]
          exact Memory.read_of_lt hp.1
        · simp [Memory.read]
      · rename_i hak
        simp only [Memory.read, Ne.symm hak, if_false]
        exact ih (Memory.wf_tail h)

/-- The three bytes of a word lie inside the image. -/
theorem Memory.word_inside (i : Index) : Config.wordBytes * i.toNat + 2 < Memory.size := by
  have := i.isLt
  simp only [Config.wordBytes, Memory.size, Config.maxProgLen]
  omega

/-- Writing a word keeps the canonical form. -/
theorem Memory.wf_writeWord {m : Memory} {i : Index} {w : Word} (h : Memory.wf m) : Memory.wf (Memory.writeWord m i w) := by
  have hi := Memory.word_inside i
  exact Memory.wf_write (Memory.wf_write (Memory.wf_write h (by omega)) (by omega)) (by omega)

/-- The check of a program's length, as a bound. -/
theorem wellFormedProgram_iff (ws : List Word) : wellFormedProgram ws = true ↔ ws.length ≤ 256 :=
  ⟨of_decide_eq_true, decide_eq_true⟩

/-- The image of a program is in canonical form. -/
theorem wf_imageFrom (i : Nat) (ws : List Word) : Memory.wf (imageFrom i ws) := by
  induction ws generalizing i with
  | nil => exact Memory.wf_nil
  | cons w rest ih => exact Memory.wf_writeWord (ih (i + 1))

/-- A written word adds cells at its own three bytes only. -/
theorem Memory.mem_writeWord {m : Memory} {i : Index} {w : Word} {c : Host.Cell} (h : c ∈ Memory.writeWord m i w) :
    c ∈ m ∨ (Config.wordBytes * i.toNat ≤ c.1 ∧ c.1 < Config.wordBytes * (i.toNat + 1)) := by
  simp only [Config.wordBytes] at *
  rcases Memory.mem_write h with h | ⟨rfl, _⟩
  · rcases Memory.mem_write h with h | ⟨rfl, _⟩
    · rcases Memory.mem_write h with h | ⟨rfl, _⟩
      · exact .inl h
      · exact .inr ⟨by simp only [Config.wordBytes]; omega, by simp only [Config.wordBytes]; omega⟩
    · exact .inr ⟨by simp only [Config.wordBytes]; omega, by simp only [Config.wordBytes]; omega⟩
  · exact .inr ⟨by simp only [Config.wordBytes]; omega, by simp only [Config.wordBytes]; omega⟩

/-- The bytes of a word, joined again in their order, are the word (R48). -/
@[simp] theorem wordOfBytes_wordByte (w : Word) : wordOfBytes (wordByte w 0) (wordByte w 1) (wordByte w 2) = w := by
  apply BitVec.eq_of_toNat_eq
  have := w.isLt
  simp only [wordOfBytes, wordByte, BitVec.toNat_append, BitVec.extractLsb'_toNat, Nat.shiftRight_eq_div_pow]
  rw [← Nat.shiftLeft_add_eq_or_of_lt (by omega), ← Nat.shiftLeft_add_eq_or_of_lt (by omega)]
  simp only [Nat.shiftLeft_eq]
  omega

/-- A word read back after it is written. -/
theorem Memory.readWord_writeWord_same {m : Memory} {i : Index} {w : Word} (h : Memory.wf m) :
    Memory.readWord (Memory.writeWord m i w) i = w := by
  have hi := Memory.word_inside i
  have h0 := Memory.wf_write (b := wordByte w 0) h (a := Config.wordBytes * i.toNat) (by omega)
  have h1 := Memory.wf_write (b := wordByte w 1) h0 (a := Config.wordBytes * i.toNat + 1) (by omega)
  have hb2 := Memory.read_write_same (a := Config.wordBytes * i.toNat + 2) (b := wordByte w 2) h1
  simp only [Memory.readWord, Memory.writeWord]
  rw [hb2, Memory.read_write_other (by omega), Memory.read_write_other (by omega), Memory.read_write_same h,
    Memory.read_write_other (by omega), Memory.read_write_same h0]
  exact wordOfBytes_wordByte w

/-- Writing a word leaves the word at every other index alone. -/
theorem Memory.readWord_writeWord_other {m : Memory} {i j : Index} {w : Word} (h : j ≠ i) :
    Memory.readWord (Memory.writeWord m i w) j = Memory.readWord m j := by
  have hne : j.toNat ≠ i.toNat := fun e => h (BitVec.eq_of_toNat_eq e)
  have off : ∀ x < 3, ∀ y < 3, Config.wordBytes * j.toNat + x ≠ Config.wordBytes * i.toNat + y := by
    intro x hx y hy
    simp only [Config.wordBytes]
    omega
  have keep : ∀ x < 3, Memory.read (Memory.writeWord m i w) (Config.wordBytes * j.toNat + x) =
      Memory.read m (Config.wordBytes * j.toNat + x) := by
    intro x hx
    simp only [Memory.writeWord]
    rw [Memory.read_write_other (off x hx 2 (by omega)), Memory.read_write_other (off x hx 1 (by omega)),
      Memory.read_write_other (by simpa using off x hx 0 (by omega))]
  simp only [Memory.readWord]
  rw [keep 1 (by omega), keep 2 (by omega)]
  have := keep 0 (by omega)
  simp only [Nat.add_zero] at this
  rw [this]

/-- A listed byte of a canonical image is what a read of its address finds. -/
theorem Memory.read_of_mem {m : Memory} (h : Memory.wf m) {c : Host.Cell} (hc : c ∈ m) : Memory.read m c.1 = c.2 := by
  induction m with
  | nil => simp at hc
  | cons d rest ih =>
    obtain ⟨k, v⟩ := d
    rcases List.mem_cons.1 hc with rfl | hc
    · simp [Memory.read]
    · have hlt : k < c.1 := (List.pairwise_cons.1 h.1).1 c hc
      simp only [Memory.read, Nat.ne_of_lt hlt, if_false]
      exact ih (Memory.wf_tail h) hc

/-- Equal images are equal data: canonical images that read alike are the same list. -/
theorem Memory.eq_of_read_eq {m n : Memory} (hm : Memory.wf m) (hn : Memory.wf n)
    (h : ∀ a, Memory.read m a = Memory.read n a) : m = n := by
  have listed : ∀ {x y : Memory}, Memory.wf x → Memory.wf y → (∀ a, Memory.read x a = Memory.read y a) → ∀ c ∈ x, c ∈ y := by
    intro x y hx hy hxy c hc
    by_contra hcy
    have hc2 : Memory.read y c.1 = c.2 := by rw [← hxy, Memory.read_of_mem hx hc]
    have hne := (hx.2 c hc).2
    have found : ∀ {z : Memory}, Memory.read z c.1 = c.2 → c ∈ z := by
      intro z
      induction z with
      | nil => intro hz; exact absurd hz.symm hne
      | cons d rest ih =>
        obtain ⟨k, v⟩ := d
        intro hz
        simp only [Memory.read] at hz
        split at hz
        · rename_i hk
          exact List.mem_cons.2 (.inl (Prod.ext hk.symm hz.symm))
        · exact List.mem_cons_of_mem _ (ih hz)
    exact hcy (found hc2)
  have pair : ∀ {x : Memory}, Memory.wf x → x.Nodup := fun hx =>
    hx.1.imp fun {p q} hpq => fun e => absurd hpq (by simp [e])
  have hperm : m.Perm n := (List.perm_ext_iff_of_nodup (pair hm) (pair hn)).2 fun c =>
    ⟨listed hm hn h c, listed hn hm (fun a => (h a).symm) c⟩
  exact hperm.eq_of_pairwise (fun p q _ _ hpq hqp => absurd hpq (Nat.lt_asymm hqp)) hm.1 hn.1

end Sys2Proof.Machine
end

