-- ==== Sys2Proof/Laws/Ops.lean ====
section
/-! SUPPORT. One lemma for each shared operation that says once what it can do, for the proofs to cite instead of unfolding it:
memory, fetch and dispatch, next address, the tick, and the step's inversion. -/

namespace Sys2Proof.Machine

variable (s : State) (r r' : Reg)

/-! ### Next address and branch -/

theorem nextAddr_eq_some {i j : Index} :
    nextAddr i s = some j ↔ i.toNat + 1 < s.progLen.val ∧ j.toNat = i.toNat + 1 := by
  have := s.progLen.isLt
  unfold nextAddr
  split
  · rename_i h
    have hi : (i + 1).toNat = i.toNat + 1 := by simp [BitVec.toNat_add]; omega
    constructor
    · rintro ⟨rfl⟩
      exact ⟨h, hi⟩
    · rintro ⟨_, hj⟩
      rw [BitVec.eq_of_toNat_eq (x := i + 1) (y := j) (by omega)]
  · rename_i h
    simp [h]

theorem nextAddr_eq_none {i : Index} : nextAddr i s = none ↔ s.progLen.val ≤ i.toNat + 1 := by
  unfold nextAddr
  split <;> simp <;> omega

/-- `advance` does exactly what `PcAdvanced` says to the pc (R45). -/
theorem pcAdvanced_advance : PcAdvanced s (advance s) := by
  unfold PcAdvanced advance
  split
  · rename_i h
    have hs : nextAddr s.pcIdx s = some (s.pcIdx + 1) := by simp [nextAddr, h]
    rw [hs]
    exact ⟨((nextAddr_eq_some s).1 hs).2, rfl⟩
  · rename_i h
    rw [(nextAddr_eq_none s).2 (by omega)]
    exact ⟨rfl, rfl⟩

@[simp] theorem branch_true (a : Index) : branch true a s = jumpTo a s := rfl
@[simp] theorem branch_false (a : Index) : branch false a s = advance s := rfl

/-! ### Arithmetic on register values -/

/-- The wrapped sum is the 8-bit sum. -/
@[simp] theorem wrapAdd_eq (c t : Byte) : wrapAdd c t = c + t := by
  apply BitVec.eq_of_toNat_eq
  simp [wrapAdd, BitVec.toNat_add]

/-- The wrapped difference is the 8-bit difference. -/
@[simp] theorem wrapSub_eq (c t : Byte) : wrapSub c t = c - t := by
  apply BitVec.eq_of_toNat_eq
  have := c.isLt
  have := t.isLt
  simp only [wrapSub, BitVec.toNat_ofInt, BitVec.toNat_sub]
  omega

@[simp] theorem lessThan_iff (c v : Byte) : lessThan c v = true ↔ c < v := by simp [lessThan, BitVec.lt_def]
@[simp] theorem greaterThan_iff (c v : Byte) : greaterThan c v = true ↔ v < c := by simp [greaterThan, BitVec.lt_def]
@[simp] theorem equalTo_iff (c v : Byte) : equalTo c v = true ↔ c = v := by
  simp [equalTo, BitVec.toNat_inj]

/-! ### Fetch and dispatch -/

/-- A fetch answers the word at the pc, or AddressError (R44). -/
theorem fetch_cases :
    (s.pcAbsent = false ∧ s.pcIdx.toNat < s.progLen.val ∧ fetch s = .ok (Memory.readWord s.rom s.pcIdx)) ∨
    ((s.pcAbsent = true ∨ s.progLen.val ≤ s.pcIdx.toNat) ∧ fetch s = .error .addressError) := by
  unfold fetch memRead
  cases hp : s.pcAbsent
  · by_cases h : s.pcIdx.toNat < s.progLen.val
    · exact .inl ⟨rfl, h, by simp [h]⟩
    · exact .inr ⟨.inr (by omega), by simp [h]⟩
  · exact .inr ⟨.inl rfl, by simp⟩

/-- When the cycle has an instruction to run (R90, R93). -/
theorem fetchInstr_eq_ok {i : Instr} : fetchInstr s = .ok i ↔
    s.pcAbsent = false ∧ s.pcIdx.toNat < s.progLen.val ∧ decode (Memory.readWord s.rom s.pcIdx) = .ok i := by
  rcases fetch_cases s with ⟨h1, h2, h3⟩ | ⟨h, h3⟩
  · simp only [fetchInstr, h3, h1, h2, true_and]
    cases decode (Memory.readWord s.rom s.pcIdx) <;> simp
  · simp only [fetchInstr, h3]
    constructor
    · intro h; cases h
    · rintro ⟨h1, h2, _⟩
      rcases h with h | h
      · simp [h1] at h
      · omega

/-- Which fault the cycle raises instead (R150, R157). -/
theorem fetchInstr_eq_error {f : Fault} : fetchInstr s = .error f ↔
    (f = .addressError ∧ (s.pcAbsent = true ∨ s.progLen.val ≤ s.pcIdx.toNat)) ∨
    (s.pcAbsent = false ∧ s.pcIdx.toNat < s.progLen.val ∧
      ((f = .unknownOpcode ∧ decode (Memory.readWord s.rom s.pcIdx) = .unknownOpcode) ∨
       (f = .formatError ∧ decode (Memory.readWord s.rom s.pcIdx) = .formatError))) := by
  rcases fetch_cases s with ⟨h1, h2, h3⟩ | ⟨h, h3⟩
  · have hn : ¬ s.progLen.val ≤ s.pcIdx.toNat := by omega
    simp only [fetchInstr, h3, h1, h2, hn]
    cases decode (Memory.readWord s.rom s.pcIdx) <;> simp [eq_comm]
  · simp only [fetchInstr, h3]
    constructor
    · intro e; cases e; exact .inl ⟨rfl, h⟩
    · rintro (⟨rfl, _⟩ | ⟨h1, h2, _⟩)
      · rfl
      · rcases h with h | h
        · simp [h1] at h
        · omega

/-! ### The tick -/

@[simp] theorem tickLoad_pcIdx : (tickLoad r s).pcIdx = s.pcIdx := by simp only [tickLoad]; split <;> simp
@[simp] theorem tickLoad_pcAbsent : (tickLoad r s).pcAbsent = s.pcAbsent := by simp only [tickLoad]; split <;> simp
@[simp] theorem tickLoad_running : (tickLoad r s).running = s.running := by simp only [tickLoad]; split <;> simp
@[simp] theorem tickLoad_fault : (tickLoad r s).fault = s.fault := by simp only [tickLoad]; split <;> simp
@[simp] theorem tickLoad_faultAddr : (tickLoad r s).faultAddr = s.faultAddr := by simp only [tickLoad]; split <;> simp
@[simp] theorem tickLoad_progLen : (tickLoad r s).progLen = s.progLen := by simp only [tickLoad]; split <;> simp
@[simp] theorem tickLoad_rom : (tickLoad r s).rom = s.rom := by simp only [tickLoad]; split <;> simp

@[simp] theorem tickEnable_pcIdx : (tickEnable r s).pcIdx = s.pcIdx := by simp only [tickEnable]; split <;> simp
@[simp] theorem tickEnable_pcAbsent : (tickEnable r s).pcAbsent = s.pcAbsent := by simp only [tickEnable]; split <;> simp
@[simp] theorem tickEnable_running : (tickEnable r s).running = s.running := by simp only [tickEnable]; split <;> simp
@[simp] theorem tickEnable_fault : (tickEnable r s).fault = s.fault := by simp only [tickEnable]; split <;> simp
@[simp] theorem tickEnable_faultAddr : (tickEnable r s).faultAddr = s.faultAddr := by simp only [tickEnable]; split <;> simp
@[simp] theorem tickEnable_progLen : (tickEnable r s).progLen = s.progLen := by simp only [tickEnable]; split <;> simp
@[simp] theorem tickEnable_rom : (tickEnable r s).rom = s.rom := by simp only [tickEnable]; split <;> simp

@[simp] theorem tickReg_pcIdx : (tickReg r s).pcIdx = s.pcIdx := by simp [tickReg]
@[simp] theorem tickReg_pcAbsent : (tickReg r s).pcAbsent = s.pcAbsent := by simp [tickReg]
@[simp] theorem tickReg_running : (tickReg r s).running = s.running := by simp [tickReg]
@[simp] theorem tickReg_fault : (tickReg r s).fault = s.fault := by simp [tickReg]
@[simp] theorem tickReg_faultAddr : (tickReg r s).faultAddr = s.faultAddr := by simp [tickReg]
@[simp] theorem tickReg_progLen : (tickReg r s).progLen = s.progLen := by simp [tickReg]
@[simp] theorem tickReg_rom : (tickReg r s).rom = s.rom := by simp [tickReg]

/-- After its tick a register holds the bus value if a load was pending (R96). -/
@[simp] theorem readReg_tickReg : readReg r' (tickReg r s) = if r' = r ∧ loadPending r s = true then s.bus else readReg r' s := by
  simp only [tickReg, tickEnable, tickLoad]
  split <;> split <;> simp_all

/-- After a register's tick the bus holds its value, taken after the load, if an enable was pending (R96, R97). -/
@[simp] theorem tickReg_bus : (tickReg r s).bus =
    if enablePending r s then (if loadPending r s then s.bus else readReg r s) else s.bus := by
  by_cases h : loadPending r s = true <;> by_cases h' : enablePending r s = true <;>
    simp [tickReg, tickEnable, tickLoad, h, h']

/-- A register's tick clears its own load flag (R14, R96). -/
@[simp] theorem loadPending_tickReg : loadPending r' (tickReg r s) = if r' = r then false else loadPending r' s := by
  simp only [tickReg, tickEnable, tickLoad]
  split <;> split <;> simp

/-- A register's tick clears its own enable flag (R14, R96). -/
@[simp] theorem enablePending_tickReg : enablePending r' (tickReg r s) = if r' = r then false else enablePending r' s := by
  simp only [tickReg, tickEnable, tickLoad]
  split <;> split <;> simp

/-- The tick is the three registers' ticks in their order (R94). -/
theorem tick_eq : tick s = tickReg .C (tickReg .B (tickReg .A s)) := rfl

@[simp] theorem tick_pcIdx : (tick s).pcIdx = s.pcIdx := by simp [tick_eq]
@[simp] theorem tick_pcAbsent : (tick s).pcAbsent = s.pcAbsent := by simp [tick_eq]
@[simp] theorem tick_running : (tick s).running = s.running := by simp [tick_eq]
@[simp] theorem tick_fault : (tick s).fault = s.fault := by simp [tick_eq]
@[simp] theorem tick_faultAddr : (tick s).faultAddr = s.faultAddr := by simp [tick_eq]
@[simp] theorem tick_progLen : (tick s).progLen = s.progLen := by simp [tick_eq]
@[simp] theorem tick_rom : (tick s).rom = s.rom := by simp [tick_eq]

/-- Every tick clears every flag (R14, R18). -/
theorem flagsClear_tick : (tick s).flagsClear :=
  flagsClear_iff.2 ⟨fun r => by cases r <;> simp [tick_eq], fun r => by cases r <;> simp [tick_eq]⟩

theorem flagsClear_haltTest {s : State} (h : s.flagsClear) : (haltTest s).flagsClear := by
  unfold haltTest; split <;> exact h

/-! ### The cycle -/

/-- Every handler completes (R168). -/
theorem exec_next (i : Instr) : ∃ t, exec i s = .next t := by
  cases i <;> exact ⟨_, rfl⟩

/-- What one machine cycle can do, once: nothing, a fault, or an instruction with its tick and halt test (R90). -/
theorem step_cases :
    (s.running = false ∧ step s = .next s) ∨
    (s.running = true ∧ ∃ f, fetchInstr s = .error f ∧ step s = .next (raise f s)) ∨
    (s.running = true ∧ ∃ i t, fetchInstr s = .ok i ∧ exec i s = .next t ∧ step s = .next (haltTest (tick t))) := by
  unfold step
  cases hr : s.running
  · exact .inl ⟨rfl, by simp⟩
  · cases hf : fetchInstr s with
    | error f => exact .inr (.inl ⟨rfl, f, rfl, by simp⟩)
    | ok i =>
      obtain ⟨t, ht⟩ := exec_next s i
      exact .inr (.inr ⟨rfl, i, t, rfl, ht, by simp [ht, endCycle]⟩)

/-- The same from the outcome: where `step` answers `u`. -/
theorem step_next {s u : State} (h : step s = .next u) :
    (s.running = false ∧ u = s) ∨
    (s.running = true ∧ ∃ f, fetchInstr s = .error f ∧ u = raise f s) ∨
    (s.running = true ∧ ∃ i t, fetchInstr s = .ok i ∧ exec i s = .next t ∧ u = haltTest (tick t)) := by
  rcases step_cases s with ⟨h1, h2⟩ | ⟨h1, f, h2, h3⟩ | ⟨h1, i, t, h2, h3, h4⟩
  · rw [h] at h2; cases h2; exact .inl ⟨h1, rfl⟩
  · rw [h] at h3; cases h3; exact .inr (.inl ⟨h1, f, h2, rfl⟩)
  · rw [h] at h4; cases h4; exact .inr (.inr ⟨h1, i, t, h2, h3, rfl⟩)

end Sys2Proof.Machine
end

