-- ==== Sys2Proof/Laws/Decode.lean ====
section
/-! SUPPORT. The fields of an encoded word, one lemma per field, and that the five fields make up the word (30_encoding.md R63, R68). -/

namespace Sys2Proof

/-- What the encoding of an instruction holds in `reg` (R68, R69). -/
def Instr.regOperand : Instr → BitVec 2
  | .mov _ t | .mvc t | .add t | .sub t | .cop t => regCode t
  | .jmp _ | .jml _ _ | .jmg _ _ | .jme _ _ | .hlt => 0

/-- What the encoding of an instruction holds in `imm` (R68, R69). -/
def Instr.immOperand : Instr → Byte
  | .mov v _ | .jml v _ | .jmg v _ | .jme v _ => v
  | .mvc _ | .add _ | .sub _ | .cop _ | .jmp _ | .hlt => 0

/-- What the encoding of an instruction holds in `tgt` (R68, R69). -/
def Instr.tgtOperand : Instr → Index
  | .jmp a | .jml _ a | .jmg _ a | .jme _ a => a
  | .mov _ _ | .mvc _ | .add _ | .sub _ | .cop _ | .hlt => 0

theorem opcodeField_encode (i : Instr) : (opcodeField (encode i)).toNat = opcodeNumber i := by
  suffices h : opcodeField (encode i) = BitVec.ofNat 4 (opcodeNumber i) by
    rw [h]; cases i <;> rfl
  cases i with
  | mov v t =>
    simp only [encode, opcodeField, immBits, opcodeNumber]
    ext k hk; cases t <;> interval_cases k <;> simp [regBits, regCode]
  | mvc t | add t | sub t | cop t => cases t <;> rfl
  | jmp a =>
    simp only [encode, opcodeField, tgtBits, opcodeNumber]
    ext k hk; interval_cases k <;> simp
  | jml v a | jmg v a | jme v a =>
    simp only [encode, opcodeField, immBits, tgtBits, opcodeNumber]
    ext k hk; interval_cases k <;> simp
  | hlt => rfl

@[simp] theorem mbzField_encode (i : Instr) : mbzField (encode i) = 0 := by
  cases i with
  | mov v t =>
    simp only [encode, mbzField, immBits]
    ext k hk; cases t <;> interval_cases k <;> simp [regBits, regCode]
  | mvc t | add t | sub t | cop t => cases t <;> rfl
  | jmp a =>
    simp only [encode, mbzField, tgtBits]
    ext k hk; interval_cases k <;> simp
  | jml v a | jmg v a | jme v a =>
    simp only [encode, mbzField, immBits, tgtBits]
    ext k hk; interval_cases k <;> simp
  | hlt => rfl

@[simp] theorem regField_encode (i : Instr) : regField (encode i) = i.regOperand := by
  cases i with
  | mov v t =>
    simp only [encode, regField, immBits, Instr.regOperand]
    ext k hk; cases t <;> interval_cases k <;> simp [regBits, regCode]
  | mvc t | add t | sub t | cop t => cases t <;> rfl
  | jmp a =>
    simp only [encode, regField, tgtBits, Instr.regOperand]
    ext k hk; interval_cases k <;> simp
  | jml v a | jmg v a | jme v a =>
    simp only [encode, regField, immBits, tgtBits, Instr.regOperand]
    ext k hk; interval_cases k <;> simp
  | hlt => rfl

@[simp] theorem immField_encode (i : Instr) : immField (encode i) = i.immOperand := by
  cases i with
  | mov v t =>
    simp only [encode, immField, immBits, Instr.immOperand]
    ext k hk; cases t <;> interval_cases k <;> simp [regBits, regCode]
  | mvc t | add t | sub t | cop t => cases t <;> rfl
  | jmp a =>
    simp only [encode, immField, tgtBits, Instr.immOperand]
    ext k hk; interval_cases k <;> simp
  | jml v a | jmg v a | jme v a =>
    simp only [encode, immField, immBits, tgtBits, Instr.immOperand]
    ext k hk; interval_cases k <;> simp
  | hlt => rfl

@[simp] theorem tgtField_encode (i : Instr) : tgtField (encode i) = i.tgtOperand := by
  cases i with
  | mov v t =>
    simp only [encode, tgtField, immBits, Instr.tgtOperand]
    ext k hk; cases t <;> interval_cases k <;> simp [regBits, regCode]
  | mvc t | add t | sub t | cop t => cases t <;> rfl
  | jmp a =>
    simp only [encode, tgtField, tgtBits, Instr.tgtOperand]
    ext k hk; interval_cases k <;> simp
  | jml v a | jmg v a | jme v a =>
    simp only [encode, tgtField, immBits, tgtBits, Instr.tgtOperand]
    ext k hk; interval_cases k <;> simp
  | hlt => rfl

/-- The five fields of R63 cover all 24 bits. -/
theorem word_eq_of_fields {w x : Word} (ho : opcodeField w = opcodeField x) (hr : regField w = regField x)
    (hz : mbzField w = mbzField x) (hi : immField w = immField x) (ht : tgtField w = tgtField x) : w = x := by
  have hx := x.isLt
  have hw := w.isLt
  have ho := congrArg BitVec.toNat ho
  have hr := congrArg BitVec.toNat hr
  have hz := congrArg BitVec.toNat hz
  have hi := congrArg BitVec.toNat hi
  have ht := congrArg BitVec.toNat ht
  simp only [opcodeField, regField, mbzField, immField, tgtField, BitVec.extractLsb'_toNat,
    Nat.shiftRight_eq_div_pow] at ho hr hz hi ht
  apply BitVec.eq_of_toNat_eq
  omega

/-- A code names a register exactly where it is that register's code (R65). -/
theorem regOfCode_eq_some {rc : BitVec 2} {t : Reg} : regOfCode rc = some t ↔ rc = regCode t := by
  cases t <;> revert rc <;> decide

@[simp] theorem regOfCode_regCode (t : Reg) : regOfCode (regCode t) = some t := by cases t <;> rfl

/-- Decoding a word with a known opcode and `mbz` 0: its format alone decides (R70). -/
theorem decode_of_known {w : Word} (h : (opcodeField w).toNat ≤ 9) (hz : mbzField w = 0) :
    decode w = match (opcodeField w).toNat with
      | 0 => decodeRI w
      | 1 => decodeR .mvc w
      | 2 => decodeR .add w
      | 3 => decodeR .sub w
      | 4 => decodeR .cop w
      | 5 => decodeJ w
      | 6 => decodeIJ .jml w
      | 7 => decodeIJ .jmg w
      | 8 => decodeIJ .jme w
      | _ => decodeN w := by
  have hn : ¬ 10 ≤ (opcodeField w).toNat := by omega
  simp only [decode, hz]
  interval_cases (opcodeField w).toNat <;> simp

end Sys2Proof
end

