-- ==== Sys2Proof/Laws/PerInstr.lean ====
section
/-! SUPPORT. Statements made once per instruction. Family EncodedWord: the encoder's word fits the row of 30_encoding.md R68 that
stands for the instruction, whatever its operands. -/

namespace Sys2Proof.Laws.EncodedWord

/-- The encoded word of `i` fits the row of `i`, whose place in the table is its opcode number (R67, R68). -/
def Statement (i : Instr) : Prop :=
  ∃ row, encRows[opcodeNumber i]? = some row ∧ row.fits (encode i) = true

/-- An immediate and a target, each in its place, leave the bits of a mask as they are where the mask selects neither. -/
theorem masked_imm_tgt (k : Word) (v : Byte) (a : Index) :
    (k ||| immBits v ||| tgtBits a) &&& 0xFF0000 = k &&& 0xFF0000 := by
  simp only [immBits, tgtBits]
  ext i hi
  interval_cases i <;> simp

theorem mov (v : Byte) (t : Reg) : Statement (.mov v t) := by
  refine ⟨_, rfl, ?_⟩
  have hv : ∀ k : Word, (k ||| immBits v) &&& 0xF300FF = k &&& 0xF300FF := by
    intro k
    simp only [immBits]
    ext i hi
    interval_cases i <;> simp
  have hr : ∀ k : Word, (k ||| immBits v) &&& 0x0C0000 = k &&& 0x0C0000 := by
    intro k
    simp only [immBits]
    ext i hi
    interval_cases i <;> simp
  simp only [EncRow.fits, encode, hv, hr]
  cases t <;> decide

theorem mvc (t : Reg) : Statement (.mvc t) := ⟨_, rfl, by cases t <;> decide⟩
theorem add (t : Reg) : Statement (.add t) := ⟨_, rfl, by cases t <;> decide⟩
theorem sub (t : Reg) : Statement (.sub t) := ⟨_, rfl, by cases t <;> decide⟩
theorem cop (t : Reg) : Statement (.cop t) := ⟨_, rfl, by cases t <;> decide⟩

theorem jmp (a : Index) : Statement (.jmp a) := by
  refine ⟨_, rfl, ?_⟩
  have h : (0x500000 ||| tgtBits a) &&& 0xFFFF00 = (0x500000 : Word) := by
    simp only [tgtBits]
    ext i hi
    interval_cases i <;> simp
  simp only [EncRow.fits, encode, h, Bool.false_and]
  decide

theorem jml (v : Byte) (a : Index) : Statement (.jml v a) :=
  ⟨_, rfl, by simp only [EncRow.fits, encode, masked_imm_tgt, Bool.false_and]; decide⟩

theorem jmg (v : Byte) (a : Index) : Statement (.jmg v a) :=
  ⟨_, rfl, by simp only [EncRow.fits, encode, masked_imm_tgt, Bool.false_and]; decide⟩

theorem jme (v : Byte) (a : Index) : Statement (.jme v a) :=
  ⟨_, rfl, by simp only [EncRow.fits, encode, masked_imm_tgt, Bool.false_and]; decide⟩

theorem hlt : Statement .hlt := ⟨_, rfl, by decide⟩

end Sys2Proof.Laws.EncodedWord
end

