-- ==== Sys2Proof/Laws/Run.lean ====
section
/-! SUPPORT. Runs of many cycles (`Host.Core.run`), unfolded once. -/

namespace Sys2Proof.Machine

@[simp] theorem run_zero (s : State) : Host.Core.run core 0 s = .next s := rfl

/-- A run of `n + 1` cycles is one cycle and a run of `n` from where it led. -/
theorem run_succ_of_step {s u : State} (h : step s = .next u) (n : Nat) :
    Host.Core.run core (n + 1) s = Host.Core.run core n u := by
  have h' : core.step s = .next u := h
  simp only [Host.Core.run, h']

/-- A state that a cycle leaves as it is stays so for ever. -/
theorem run_of_step_self {s : State} (h : step s = .next s) (n : Nat) : Host.Core.run core n s = .next s := by
  induction n with
  | zero => rfl
  | succ n ih => rw [run_succ_of_step h, ih]

/-- What every cycle keeps, every run keeps. -/
theorem run_induction {P : State → Prop} (keep : ∀ s u, P s → step s = .next u → P u) {n : Nat} {s u : State} (hs : P s)
    (h : Host.Core.run core n s = .next u) : P u := by
  induction n generalizing s with
  | zero => cases h; exact hs
  | succ n ih =>
    rcases step_cases s with ⟨_, h2⟩ | ⟨_, f, _, h2⟩ | ⟨_, i, t, _, _, h2⟩ <;>
      exact ih (keep _ _ hs h2) (by rw [← run_succ_of_step h2]; exact h)

end Sys2Proof.Machine
end

