-- ==== Sys2Proof/Tests/Slice0.lean ====
section
/-! SUPPORT. Tests. Expected results are those of spec/95_test_vectors.md (the section is named), or worked by hand from the rule named;
the words are written out from the encodings of 30_encoding.md R68. The last part shows, for every statement that has
hypotheses, a concrete case that meets them. -/

namespace Sys2Proof.Tests

open Sys2Proof.Machine

/-! ### Decoding, word by word (section 2.1, R68) -/

theorem test_decode_mov_A : decode 0x000500 = .ok (.mov 0x05 .A) := by decide
theorem test_decode_mov_B : decode 0x04FF00 = .ok (.mov 0xFF .B) := by decide
theorem test_decode_mov_C : decode 0b000010000000101000000000 = .ok (.mov 0x0A .C) := by decide
theorem test_decode_mvc : decode 0b000101000000000000000000 = .ok (.mvc .B) := by decide
theorem test_decode_add : decode 0b001001000000000000000000 = .ok (.add .B) := by decide
theorem test_decode_sub : decode 0b001100000000000000000000 = .ok (.sub .A) := by decide
theorem test_decode_cop : decode 0b010010000000000000000000 = .ok (.cop .C) := by decide
theorem test_decode_jmp : decode 0b010100000000000000000010 = .ok (.jmp 0x02) := by decide
theorem test_decode_jml : decode 0b011000000000101100000100 = .ok (.jml 0x0B 0x04) := by decide
theorem test_decode_jmg : decode 0b011100000000101100000100 = .ok (.jmg 0x0B 0x04) := by decide
theorem test_decode_jme : decode 0b100000000010010100000110 = .ok (.jme 0x25 0x06) := by decide
theorem test_decode_hlt : decode 0b100100000000000000000000 = .ok .hlt := by decide
theorem test_decode_register_code_three : decode 0x0C0100 = .formatError := by decide
theorem test_decode_mov_tgt : decode 0x000501 = .formatError := by decide
theorem test_decode_mbz : decode 0x010500 = .formatError := by decide
theorem test_decode_jmp_imm : decode 0x500102 = .formatError := by decide
theorem test_decode_hlt_tgt : decode 0x900001 = .formatError := by decide
theorem test_decode_first_reserved : decode 0xA00000 = .unknownOpcode := by decide
theorem test_decode_opcode_first : decode 0xF12345 = .unknownOpcode := by decide
theorem test_decodeTableWord : decodeTableWord 24 0x802506 = some (.jme 0x25 0x06) := by decide
theorem test_decodeTableWord_reserved : decodeTableWord 24 0xFFFFFF = none := by decide
theorem test_encode_words : [encode (.mov 0x05 .A), encode (.jml 0x0B 0x04), encode .hlt] = [0x000500, 0x600B04, 0x900000] := by
  decide
theorem test_decodeBytes_short : decodeBytes [0x00, 0x05] = .tooShort 2 := by decide

/-! ### WellFormed: each check refuses an ill-formed term (R65, R68, R69, R5) -/

theorem test_wellFormed_accepts : wellFormedWord 0x000500 = true ∧ wellFormedWord 0x802506 = true := by decide
theorem test_wellFormed_opcode : wellFormedWord 0xA00000 = false := by decide
theorem test_wellFormed_mbz : wellFormedWord 0x020500 = false := by decide
theorem test_wellFormed_reg_three : wellFormedWord 0x1C0000 = false := by decide
theorem test_wellFormed_reg_unused : wellFormedWord 0x540002 = false := by decide
theorem test_wellFormed_imm_unused : wellFormedWord 0x100100 = false := by decide
theorem test_wellFormed_tgt_unused : wellFormedWord 0x900001 = false := by decide
theorem test_wellFormedProgram : wellFormedProgram (List.replicate 256 0) = true ∧
    ¬ wellFormedProgram (List.replicate 257 0) = true := by
  simp only [wellFormedProgram_iff, List.length_replicate]
  decide

/-! ### The memory's form -/

theorem test_reset_memory_wf : Memory.wf State.reset.rom := by decide
theorem test_memory_ill_formed : ¬ Memory.wf [(5, 1), (3, 2)] ∧ ¬ Memory.wf [(3, 0)] ∧ ¬ Memory.wf [(768, 1)] := by decide
theorem test_memory_write_removes : Memory.write [(3, 1), (5, 2)] 3 0 = [(5, 2)] := by decide
theorem test_image_bytes : imageFrom 0 [0x600B04] = [(0, 0x60), (1, 0x0B), (2, 0x04)] := by decide

/-! ### One machine cycle (sections 2.3 to 2.6) -/

/-- A state with the registers and bus of the spec's tables, the pc at `i`, and the program `ws`. -/
def start (ws : List Word) (i : Index) (a b c bus : Byte) : State :=
  { (bootWith { a := a, b := b, c := c, bus := bus } ws).getD State.reset with pcIdx := i }

/-- The state an outcome goes on with. -/
def after : Host.Outcome State Fault Refusal → State
  | .next s => s
  | _ => State.reset

/-- A, B, C, bus and pc after one cycle, as the tables list them. -/
def cycle (s : State) : List Byte :=
  [(after (step s)).xA, (after (step s)).xB, (after (step s)).xC, (after (step s)).bus, (after (step s)).pcIdx]

/-- pc absent, running, fault and fault_addr after one cycle. -/
def ends (s : State) : Bool × Bool × BitVec 2 × Byte :=
  ((after (step s)).pcAbsent, (after (step s)).running, (after (step s)).fault, (after (step s)).faultAddr)

theorem test_mov_B : cycle (start [0x04FF00, 0] 0 0x12 0x34 0x56 0x78) = [0x12, 0xFF, 0x56, 0xFF, 0x01] := by decide
theorem test_mov_last : cycle (start [0x000500] 0 0 0 0 0) = [0x05, 0, 0, 0x05, 0x00] ∧
    ends (start [0x000500] 0 0 0 0 0) = (true, false, 0, 0) := by decide
theorem test_mvc_A : cycle (start [0x100000, 0] 0 0x12 0x34 0x56 0x78) = [0x56, 0x34, 0x56, 0x78, 0x00] := by decide
theorem test_mvc_last_still_runs : ends (start [0x100000] 0 0x12 0x34 0x56 0x78) = (false, true, 0, 0) := by decide
theorem test_cop_A : cycle (start [0x400000, 0] 0 0x12 0x34 0x56 0x78) = [0x12, 0x34, 0x12, 0x12, 0x01] := by decide
theorem test_cop_C : cycle (start [0x480000, 0] 0 0x12 0x34 0x56 0x78) = [0x12, 0x34, 0x78, 0x78, 0x01] := by decide
theorem test_add_wraps : cycle (start [0x200000, 0] 0 0xFF 0x34 0xFF 0x78) = [0xFF, 0x34, 0xFE, 0x78, 0x01] := by decide
theorem test_add_C_doubles : cycle (start [0x280000, 0] 0 0 0 0x80 0) = [0, 0, 0x00, 0, 0x01] := by decide
theorem test_sub_order : cycle (start [0x340000, 0] 0 0x12 0x05 0x2A 0x78) = [0x12, 0x05, 0x25, 0x78, 0x01] := by decide
theorem test_sub_wraps : cycle (start [0x340000, 0] 0 0 0x81 0x80 0) = [0, 0x81, 0xFF, 0, 0x01] := by decide
theorem test_jmp_missing : cycle (start [0x500009, 0] 0 1 2 3 4) = [1, 2, 3, 4, 0x09] ∧
    ends (start [0x500009, 0] 0 1 2 3 4) = (false, true, 0, 0) := by decide
theorem test_jml_unsigned : cycle (start [0, 0x607F04, 0] 1 0 0 0x80 0) = [0, 0, 0x80, 0, 0x02] := by decide
theorem test_jml_taken : cycle (start [0, 0x60FF04, 0] 1 0 0 0xFE 0) = [0, 0, 0xFE, 0, 0x04] := by decide
theorem test_jmg_unsigned : cycle (start [0, 0x707F04, 0] 1 0 0 0x80 0) = [0, 0, 0x80, 0, 0x04] := by decide
theorem test_jmg_equal_not_taken : cycle (start [0, 0x700B04, 0] 1 0 0 0x0B 0) = [0, 0, 0x0B, 0, 0x02] := by decide
theorem test_jme_taken : cycle (start [0, 0x802504, 0] 1 0 0 0x25 0) = [0, 0, 0x25, 0, 0x04] := by decide
theorem test_jme_not_taken_at_last : ends (start [0x802504] 0 0 0 0x24 0) = (true, false, 0, 0) := by decide
theorem test_hlt : cycle (start [0, 0x900000, 0] 1 0x12 0x34 0x56 0x78) = [0x12, 0x34, 0x56, 0x78, 0x01] ∧
    ends (start [0, 0x900000, 0] 1 0x12 0x34 0x56 0x78) = (false, false, 0, 0) := by decide
theorem test_addressError : ends (start [0, 0] 0x0A 1 0 0xFE 1) = (false, false, 1, 0x0A) := by decide
theorem test_unknownOpcode : ends (start [0, 0, 0xF12345] 2 0 0 0 0) = (false, false, 2, 0x02) := by decide
theorem test_formatError_keeps_bus : cycle (start [0x0C0100] 0 1 0 0 1) = [1, 0, 0, 1, 0x00] ∧
    ends (start [0x0C0100] 0 1 0 0 1) = (false, false, 3, 0x00) := by decide

/-- Section 2.2, the rows no instruction produces: A loads the old bus before C drives; the later of two writers stands. -/
theorem test_tick_order :
    (tick { start [0] 0 0x12 0x34 0x56 0x78 with enC := true, ldA := true }).xA = 0x78 ∧
    (tick { start [0] 0 0x12 0x34 0x56 0x78 with enC := true, ldA := true }).bus = 0x56 ∧
    (tick { start [0] 0 0x12 0x34 0x56 0x78 with enA := true, enB := true }).bus = 0x34 := by decide

/-- S2: before the tick A is unchanged. -/
theorem test_mov_before_tick : (after (exec (.mov 0x05 .A) (start [0x000500, 0] 0 0 0 0 0))).xA = 0x00 ∧
    (after (exec (.mov 0x05 .A) (start [0x000500, 0] 0 0 0 0 0))).ldA = true := by decide

/-- Section 2.7: the empty program, and a program of 256 words. -/
theorem test_reset_empty : State.reset.pcAbsent = true ∧ State.reset.running = false ∧ State.reset.fault = 0 := by decide
theorem test_reset_256 : (hostReset {} [] 256).running = true ∧ (hostReset {} [] 256).pcAbsent = false := by decide

theorem test_withFetchWord_runs : cycle (State.reset.withFetchWord 24 0x000500) = [0x05, 0, 0, 0x05, 0] := by decide

/-- R43: a label is the index of its line; an undefined one is the program's length. -/
theorem test_assemble : assemble [(10, .jmp 20), (15, .jml 1 99), (20, SourceInstr.hlt)] =
    some [0x500002, 0x600103, 0x900000] := by decide
theorem test_assemble_refuses_repeated_label : assemble [(10, .hlt), (10, SourceInstr.hlt)] = none := by decide

/-! ### A case that meets the hypotheses of each statement -/

/-- Index 0 `cop A`, 1 `mvc B`, 2 `mov 0x05,A`; `pc` as given. -/
abbrev demo (i : Index) : State := start [0x400000, 0x140000, 0x000500] i 0x12 0x34 0x56 0x78

theorem test_witness_demo_inv : (demo 0).Inv ∧ (demo 0).running = true := by
  exact ⟨⟨by decide, by decide, by decide, by decide, by decide, by decide, by decide⟩, by decide⟩

theorem test_witness_EncodeOfDecode : decode 0x000500 = .ok (.mov 0x05 .A) := by decide
theorem test_witness_DecodeAgreesWithMaskTable : (encRows[0]?).isSome = true ∧ (encRows[9]?).isSome = true := by decide
theorem test_witness_UnusedFieldsMustBeZero_mbz :
    (opcodeField 0x910000).toNat ≤ 9 ∧ mbzField 0x910000 ≠ 0 := by decide
theorem test_witness_UnusedFieldsMustBeZero_tgt :
    ((opcodeField 0x400001).toNat ≤ 4 ∧ tgtField 0x400001 ≠ 0) ∧ ((opcodeField 0x9000FF).toNat = 9 ∧ tgtField 0x9000FF ≠ 0) := by
  decide
theorem test_witness_UnusedFieldsMustBeZero_imm :
    (1 ≤ (opcodeField 0x100100).toNat ∧ immField 0x100100 ≠ 0) ∧ ((opcodeField 0x50FF00).toNat ≤ 5 ∧ immField 0x50FF00 ≠ 0) ∧
    ((opcodeField 0x900100).toNat = 9 ∧ immField 0x900100 ≠ 0) := by decide
theorem test_witness_UnusedFieldsMustBeZero_reg :
    5 ≤ (opcodeField 0x540000).toNat ∧ (opcodeField 0x9C0000).toNat ≤ 9 ∧ regField 0x540000 ≠ 0 ∧ regField 0x9C0000 ≠ 0 := by
  decide
theorem test_witness_RegisterCodes :
    ((opcodeField 0x0C0100).toNat ≤ 4 ∧ regField 0x0C0100 = 3) ∧ ((opcodeField 0x4C0000).toNat ≤ 4 ∧ regField 0x4C0000 = 3) := by
  decide
/-- First and last index of the program. -/
theorem test_witness_StepRunsDecodedInstruction :
    ((demo 0).running = true ∧ (demo 0).pcAbsent = false ∧ (demo 0).pcIdx.toNat < (demo 0).progLen.val ∧
      decode (Memory.readWord (demo 0).rom (demo 0).pcIdx) = .ok (.cop .A)) ∧
    ((demo 2).running = true ∧ (demo 2).pcAbsent = false ∧ (demo 2).pcIdx.toNat < (demo 2).progLen.val ∧
      decode (Memory.readWord (demo 2).rom (demo 2).pcIdx) = .ok (.mov 0x05 .A)) := by decide
/-- The index just past the program, and the top index. -/
theorem test_witness_FaultEffect_address :
    ((demo 3).running = true ∧ (demo 3).pcAbsent = false ∧ (demo 3).progLen.val ≤ (demo 3).pcIdx.toNat) ∧
    (demo 255).progLen.val ≤ (demo 255).pcIdx.toNat := by decide
/-- The lowest and the highest reserved opcode, at the last index. -/
theorem test_witness_FaultEffect_opcode :
    (start [0xA00000] 0 0 0 0 0).running = true ∧ (start [0xA00000] 0 0 0 0 0).pcAbsent = false ∧
    (start [0xA00000] 0 0 0 0 0).pcIdx.toNat < (start [0xA00000] 0 0 0 0 0).progLen.val ∧
    decode (Memory.readWord (start [0xA00000] 0 0 0 0 0).rom 0) = .unknownOpcode ∧
    decode (Memory.readWord (start [0xFFFFFF] 0 0 0 0 0).rom 0) = .unknownOpcode := by decide
theorem test_witness_FaultEffect_format :
    (start [0x0C0100] 0 0 0 0 0).running = true ∧ (start [0x0C0100] 0 0 0 0 0).pcAbsent = false ∧
    (start [0x0C0100] 0 0 0 0 0).pcIdx.toNat < (start [0x0C0100] 0 0 0 0 0).progLen.val ∧
    decode (Memory.readWord (start [0x0C0100] 0 0 0 0 0).rom 0) = .formatError := by decide
theorem test_witness_HaltedIsTerminal :
    { demo 0 with running := false }.running = false ∧ 1 ≤ { demo 0 with running := false }.progLen.val := by decide
theorem test_witness_OneRegisterTick_TickWithoutFlags : (demo 0).flagsClear ∧ loadPending .C (demo 0) = false ∧
    enablePending .C (demo 0) = false := by decide
theorem test_witness_BothFlagsRebroadcast :
    loadPending .C (after (exec (.cop .C) (demo 0))) = true ∧ enablePending .C (after (exec (.cop .C) (demo 0))) = true := by decide
theorem test_witness_exec_of_clear_flags : (demo 0).flagsClear ∧ ∃ t, exec (.cop .A) (demo 0) = .next t :=
  ⟨by decide, _, rfl⟩
theorem test_witness_LastMovLandsAndEndsTheRun :
    (demo 2).running = true ∧ (demo 2).pcAbsent = false ∧ (demo 2).pcIdx.toNat + 1 = (demo 2).progLen.val ∧ (demo 2).flagsClear ∧
    decode (Memory.readWord (demo 2).rom (demo 2).pcIdx) = .ok (.mov 0x05 .A) := by decide
/-- A jump word at index 1 of three: `jml` taken or not by C, for each of the conditional jumps below. -/
abbrev jumpAt (w : Word) (c : Byte) : State := start [0, w, 0] 1 0 0 c 0

theorem test_witness_CycleMatchesNetEffectTable :
    (jumpAt 0x600B04 0x0A).running = true ∧ (jumpAt 0x600B04 0x0A).flagsClear ∧ (jumpAt 0x600B04 0x0A).pcAbsent = false ∧
    (jumpAt 0x600B04 0x0A).pcIdx.toNat < (jumpAt 0x600B04 0x0A).progLen.val ∧
    decode (Memory.readWord (jumpAt 0x600B04 0x0A).rom 1) = .ok (.jml 0x0B 0x04) := by decide
/-- `cop A`, and `cop C` at the last index. -/
theorem test_witness_CopCycle :
    ((demo 0).running = true ∧ (demo 0).flagsClear ∧ (demo 0).pcAbsent = false ∧
      (demo 0).pcIdx.toNat < (demo 0).progLen.val ∧ decode (Memory.readWord (demo 0).rom 0) = .ok (.cop .A)) ∧
    ((start [0x480000] 0 0 0 9 5).running = true ∧ (start [0x480000] 0 0 0 9 5).flagsClear ∧
      (start [0x480000] 0 0 0 9 5).pcAbsent = false ∧
      (start [0x480000] 0 0 0 9 5).pcIdx.toNat < (start [0x480000] 0 0 0 9 5).progLen.val ∧
      decode (Memory.readWord (start [0x480000] 0 0 0 9 5).rom 0) = .ok (.cop .C)) := by decide
theorem test_witness_MvcHangs :
    (demo 1).running = true ∧ (demo 1).flagsClear ∧ (demo 1).pcAbsent = false ∧ (demo 1).pcIdx.toNat < (demo 1).progLen.val ∧
    decode (Memory.readWord (demo 1).rom 1) = .ok (.mvc .B) := by decide
theorem test_witness_SubUndoesAdd : Reg.A ≠ Reg.C := by decide
/-- Each taken form with the lowest missing target, index 3, and C next to the immediate; the state meets the rest. -/
theorem test_witness_MissingTarget_taken :
    ((jumpAt 0x500003 0).running = true ∧ (jumpAt 0x500003 0).pcAbsent = false ∧
      (jumpAt 0x500003 0).pcIdx.toNat < (jumpAt 0x500003 0).progLen.val) ∧
    decode (Memory.readWord (jumpAt 0x500003 0).rom 1) = .ok (.jmp 3) ∧
    decode (Memory.readWord (jumpAt 0x600103 0).rom 1) = .ok (.jml 1 3) ∧ (readReg .C (jumpAt 0x600103 0)).toNat < (1 : Byte).toNat ∧
    decode (Memory.readWord (jumpAt 0x700103 2).rom 1) = .ok (.jmg 1 3) ∧ (readReg .C (jumpAt 0x700103 2)).toNat > (1 : Byte).toNat ∧
    decode (Memory.readWord (jumpAt 0x800103 1).rom 1) = .ok (.jme 1 3) ∧ readReg .C (jumpAt 0x800103 1) = 1 ∧
    (jumpAt 0x800103 1).progLen.val ≤ (3 : Index).toNat := by decide
theorem test_witness_MissingTarget_not_taken :
    decode (Memory.readWord (jumpAt 0x600103 1).rom 1) = .ok (.jml 1 3) ∧ ¬ (readReg .C (jumpAt 0x600103 1)).toNat < (1 : Byte).toNat ∧
    decode (Memory.readWord (jumpAt 0x700103 1).rom 1) = .ok (.jmg 1 3) ∧ ¬ (readReg .C (jumpAt 0x700103 1)).toNat > (1 : Byte).toNat ∧
    decode (Memory.readWord (jumpAt 0x800103 2).rom 1) = .ok (.jme 1 3) ∧ readReg .C (jumpAt 0x800103 2) ≠ 1 ∧
    (jumpAt 0x800103 2).running = true ∧ (jumpAt 0x800103 2).pcAbsent = false ∧
    (jumpAt 0x800103 2).pcIdx.toNat < (jumpAt 0x800103 2).progLen.val := by decide
theorem test_witness_ResetMeetsInvariant : Memory.wf (imageFrom 0 [0x600B04]) ∧
    ∀ c ∈ imageFrom 0 [0x600B04], c.1 < Config.wordBytes * (1 : Fin 257).val := by decide
theorem test_witness_StepKeepsInvariant : (demo 0).Inv ∧ ∃ u, step (demo 0) = .next u :=
  ⟨test_witness_demo_inv.1, after (step (demo 0)), rfl⟩
theorem test_witness_FlagsAndBus : ∃ u, exec (.mov 0xFF .C) (demo 0) = .next u := ⟨_, rfl⟩
theorem test_witness_BusWritersAndReaders :
    loadPending .C (after (exec (.cop .A) (demo 0))) = true ∧ loadPending .A (after (exec (.cop .A) (demo 0))) = false := by decide
theorem test_witness_AtMostOneBusWriter : (demo 0).flagsClear ∧ (∃ u, exec (.mov 0 .A) (demo 0) = .next u) ∧
    enablePending .A (after (exec (.cop .A) (demo 0))) = true := ⟨by decide, ⟨_, rfl⟩, by decide⟩
theorem test_witness_CycleEndsWithFlagsClear : (demo 0).running = true ∧ fetchInstr (demo 0) = .ok (.cop .A) ∧
    ∃ u, step (demo 0) = .next u := ⟨by decide, rfl, after (step (demo 0)), rfl⟩
theorem test_witness_ProgramMemoryIsReadOnly : ∃ u, Host.Core.run core 1 (demo 0) = .next u :=
  ⟨after (step (demo 0)), rfl⟩
/-- The three ways `running` is cleared, and a cycle of a Halted machine. -/
theorem test_witness_RunningIsCleared :
    (after (step (start [0x900000, 0] 0 0 0 0 0))).running = false ∧ (after (step (demo 2))).running = false ∧
    (after (step (demo 3))).running = false ∧ (after (step (demo 0))).running = true ∧ State.reset.running = false := by decide
/-- The state a fault left, which meets the invariant. -/
theorem test_witness_FaultRegisters : (after (step (demo 3))).Inv ∧ (after (step (demo 3))).fault ≠ 0 ∧
    ∃ u, step (demo 3) = .next u :=
  ⟨⟨by decide, by decide, by decide, by decide, by decide, by decide, by decide⟩, by decide, after (step (demo 3)), rfl⟩
theorem test_witness_RunEnds_halted : (start [0x900000] 0 0 0 0 0).Inv ∧ (start [0x900000] 0 0 0 0 0).running = true ∧
    (∃ u, step (start [0x900000] 0 0 0 0 0) = .next u) ∧ (after (step (start [0x900000] 0 0 0 0 0))).running = false :=
  ⟨⟨by decide, by decide, by decide, by decide, by decide, by decide, by decide⟩, by decide,
    ⟨after (step (start [0x900000] 0 0 0 0 0)), rfl⟩, by decide⟩
theorem test_witness_RunEnds_ended : (demo 2).Inv ∧ (demo 2).running = true ∧ (∃ u, step (demo 2) = .next u) ∧
    (after (step (demo 2))).running = false :=
  ⟨⟨by decide, by decide, by decide, by decide, by decide, by decide, by decide⟩, by decide,
    ⟨after (step (demo 2)), rfl⟩, by decide⟩
theorem test_witness_RunEnds_faulted : (demo 3).Inv ∧ (demo 3).running = true ∧ (∃ u, step (demo 3) = .next u) ∧
    (after (step (demo 3))).running = false :=
  ⟨⟨by decide, by decide, by decide, by decide, by decide, by decide, by decide⟩, by decide,
    ⟨after (step (demo 3)), rfl⟩, by decide⟩
/-- A jump to the index just past the program. -/
theorem test_witness_AddressErrorNeedsATakenJump : (jumpAt 0x500003 0).running = true ∧
    (∃ u, step (jumpAt 0x500003 0) = .next u) ∧ (after (step (jumpAt 0x500003 0))).running = true ∧
    (after (step (jumpAt 0x500003 0))).progLen.val ≤ (after (step (jumpAt 0x500003 0))).pcIdx.toNat ∧
    (hostReset {} [] 1).running = true := ⟨by decide, ⟨after (step (jumpAt 0x500003 0)), rfl⟩, by decide⟩
/-- `mov` changes A and `mvc` changes B. -/
theorem test_witness_AAndBChange : (demo 2).flagsClear ∧ readReg .A (after (step (demo 2))) ≠ readReg .A (demo 2) ∧
    (demo 1).flagsClear ∧ readReg .B (after (step (demo 1))) ≠ readReg .B (demo 1) ∧ Reg.A ≠ Reg.C ∧ Reg.B ≠ Reg.C ∧
    (∃ u, step (demo 2) = .next u) ∧ (∃ u, step (demo 1) = .next u) :=
  ⟨by decide, by decide, by decide, by decide, by decide, by decide, ⟨after (step (demo 2)), rfl⟩, ⟨after (step (demo 1)), rfl⟩⟩
/-- Another program with the same word at the pc. -/
theorem test_witness_StepReadsOnlyTheFetchedWord :
    Memory.readWord (imageFrom 0 [0x400000, 0x900000]) (demo 0).pcIdx = Memory.readWord (demo 0).rom (demo 0).pcIdx ∧
    imageFrom 0 [0x400000, 0x900000] ≠ (demo 0).rom ∧ ∃ u, step (demo 0) = .next u :=
  ⟨by decide, by decide, after (step (demo 0)), rfl⟩
theorem test_witness_FirstFetchAfterReset : 1 ≤ (1 : Fin 257).val ∧ (0 : Fin 257).val = 0 := by decide
theorem test_witness_ResetPort : 1 ≤ (demo 0).progLen.val := by decide
theorem test_witness_BootedProgramReadsBack : (List.replicate 256 (0 : Word)).length ≤ 256 ∧
    256 < (List.replicate 257 (0 : Word)).length := by simp only [List.length_replicate]; decide
theorem test_witness_AssembledProgramDecodes :
    assemble [(10, .jmp 99), (20, SourceInstr.hlt)] = some [0x500002, 0x900000] ∧
    99 ∉ ([(10, .jmp 99), (20, SourceInstr.hlt)].map Prod.fst) ∧ labelIndex [10, 20] 99 = some 2 := by decide
theorem test_witness_PlacedInstructionIsFetched : Memory.wf (demo 0).rom ∧ decodeTableWord 24 0x900000 = some .hlt := by decide

end Sys2Proof.Tests
end

section
/-! SUPPORT. What a handler, the tick that follows it and a whole cycle leave behind, and that every cycle keeps the invariant
(10_state.md R18, R23; 40_cycle_and_tick.md R90, R102). -/

namespace Sys2Proof.Machine

/-! ### Flags -/

theorem flagsClear_writeReg {s : State} (h : s.flagsClear) (r : Reg) (v : Byte) : (writeReg r v s).flagsClear := by
  simpa [flagsClear_iff] using flagsClear_iff.1 h

theorem flagsClear_writeBus {s : State} (h : s.flagsClear) (v : Byte) : (writeBus v s).flagsClear := h

/-! ### The tick, and what is pending after a handler that found the flags clear -/

@[simp] theorem loadPending_tick (r : Reg) (s : State) : loadPending r (tick s) = false :=
  (flagsClear_iff.1 (flagsClear_tick s)).1 r

@[simp] theorem enablePending_tick (r : Reg) (s : State) : enablePending r (tick s) = false :=
  (flagsClear_iff.1 (flagsClear_tick s)).2 r

/-- The tick does not see the pc. -/
theorem tick_writePc (p : Option Index) (s : State) : tick (writePc p s) = writePc p (tick s) := by
  apply State.ext_view
  case hpcIdx => cases p <;> simp
  case hpcAbsent => cases p <;> simp
  all_goals simp [tick_eq]

@[simp] theorem tick_advance (s : State) : tick (advance s) = advance (tick s) := by
  simp [advance, tick_writePc, nextAddr]

@[simp] theorem tick_jumpTo (a : Index) (s : State) : tick (jumpTo a s) = jumpTo a (tick s) := tick_writePc (some a) s

@[simp] theorem tick_branch (b : Bool) (a : Index) (s : State) : tick (branch b a s) = branch b a (tick s) := by
  cases b <;> simp

/-- With no flag pending the tick changes nothing (R98). -/
theorem tick_of_flagsClear {s : State} (h : s.flagsClear) : tick s = s := by
  obtain ⟨hload, henable⟩ := flagsClear_iff.1 h
  apply State.ext_view <;> simp [tick_eq, hload, henable]

/-- With no flag pending and a pc, nothing is left to do after the handler (R90). -/
theorem haltTest_tick_of_flagsClear {s : State} (h : s.flagsClear) (hpc : s.pcAbsent = false) :
    haltTest (tick s) = s := by
  simp [tick_of_flagsClear h, haltTest, hpc]

/-- With one load pending the tick is a write of the bus value to that register (R96). -/
theorem tick_setLoad {s : State} (h : s.flagsClear) (t : Reg) : tick (setLoad t true s) = writeReg t s.bus s := by
  obtain ⟨hload, henable⟩ := flagsClear_iff.1 h
  apply State.ext_view
  case hreg => intro r; cases t <;> cases r <;> simp [tick_eq, hload, henable]
  case hload => simp [hload]
  case henable => simp [henable]
  all_goals simp [tick_eq, henable]

/-- The tick of `cop t` with `t` not C: C ticks after `t` has driven the bus, so both take the value of `t` (R94, R112). -/
theorem tick_cop_of_ne_C {s : State} (h : s.flagsClear) {t : Reg} (ht : t ≠ .C) :
    tick (setLoad .C true (setEnable t true s)) = writeReg .C (readReg t s) (writeBus (readReg t s) s) := by
  obtain ⟨hload, henable⟩ := flagsClear_iff.1 h
  apply State.ext_view
  case hbus => cases t <;> simp_all [tick_eq]
  case hreg => intro r; cases t <;> cases r <;> simp_all [tick_eq]
  case hload => simp [hload]
  case henable => simp [henable]
  all_goals simp [tick_eq]

/-- The tick of `cop C`: C loads the old bus value and drives it back (R97, R112). -/
theorem tick_cop_C {s : State} (h : s.flagsClear) :
    tick (setLoad .C true (setEnable .C true s)) = writeReg .C s.bus s := by
  obtain ⟨hload, henable⟩ := flagsClear_iff.1 h
  apply State.ext_view
  case hreg => intro r; cases r <;> simp [tick_eq, hload, henable]
  case hload => simp [hload]
  case henable => simp [henable]
  all_goals simp [tick_eq, henable]

/-! ### What a handler can do -/

/-- No handler writes the fault registers or the program memory (R168, R41). -/
theorem exec_keeps {i : Instr} {s t : State} (h : exec i s = .next t) :
    FaultKept s t ∧ t.progLen = s.progLen ∧ t.rom = s.rom := by
  cases i <;> cases h <;> simp [FaultKept]

/-- An advance after updates that left the pc and the program's length alone. -/
theorem pcAdvanced_advance_of_eq {s w : State} (hidx : w.pcIdx = s.pcIdx) (hlen : w.progLen = s.progLen) :
    PcAdvanced s (advance w) := by
  simpa [PcAdvanced, hidx, hlen] using pcAdvanced_advance w

theorem branch_pc_cases (b : Bool) (a : Index) (s : State) :
    PcAdvanced s (branch b a s) ∨ ∃ a', PcIs a' (branch b a s) := by
  cases b
  case false => exact .inl (pcAdvanced_advance s)
  case true => exact .inr ⟨a, rfl, rfl⟩

/-- The three ways a handler leaves the pc (R21). -/
theorem exec_pc_cases {i : Instr} {s t : State} (h : exec i s = .next t) :
    PcAdvanced s t ∨ (∃ a, PcIs a t) ∨ PcHeld s t := by
  cases i <;> cases h
  case mov v r => exact .inl (pcAdvanced_advance_of_eq (by simp) (by simp))
  case mvc r => exact .inr (.inr (by simp [PcHeld]))
  case add r => exact .inl (pcAdvanced_advance_of_eq (by simp) (by simp))
  case sub r => exact .inl (pcAdvanced_advance_of_eq (by simp) (by simp))
  case cop r => exact .inl (pcAdvanced_advance_of_eq (by simp) (by simp))
  case jmp a => exact .inr (.inl ⟨a, rfl, rfl⟩)
  case jml v a => exact (branch_pc_cases _ a s).imp_right .inl
  case jmg v a => exact (branch_pc_cases _ a s).imp_right .inl
  case jme v a => exact (branch_pc_cases _ a s).imp_right .inl
  case hlt => exact .inr (.inr ⟨rfl, rfl⟩)

/-- A handler makes a present pc absent only by an advance from the last instruction (R22, R45). -/
theorem exec_pcAbsent {i : Instr} {s t : State} (h : exec i s = .next t) (hpc : s.pcAbsent = false)
    (ht : t.pcAbsent = true) : t.pcIdx = s.pcIdx ∧ s.progLen.val ≤ s.pcIdx.toNat + 1 := by
  rcases exec_pc_cases h with hadv | ⟨a, _, hpresent⟩ | ⟨_, hheld⟩
  · unfold PcAdvanced at hadv
    split at hadv <;> simp_all
  · simp [ht] at hpresent
  · simp [ht, hpc] at hheld

/-! ### What a cycle keeps -/

/-- Every cycle completes (log entries 5 and 6). -/
theorem step_completes (s : State) : ∃ u, step s = .next u := by
  rcases step_cases s with ⟨_, h⟩ | ⟨_, f, _, h⟩ | ⟨_, i, t, _, _, h⟩ <;> exact ⟨_, h⟩

/-- No cycle changes the program memory or its length (R41). -/
theorem step_keeps_program {s u : State} (h : step s = .next u) : u.rom = s.rom ∧ u.progLen = s.progLen := by
  rcases step_next h with ⟨_, rfl⟩ | ⟨_, f, _, rfl⟩ | ⟨_, i, t, _, hexec, rfl⟩
  · exact ⟨rfl, rfl⟩
  · exact ⟨rfl, rfl⟩
  · obtain ⟨_, hlen, hrom⟩ := exec_keeps hexec
    simp [hlen, hrom]

/-- Taking a fault in a running machine keeps the invariant (R151). -/
theorem raise_keeps_inv {s : State} (hs : s.Inv) (hrun : s.running = true) (f : Fault) :
    (raise f s).Inv where
  flagsClear := hs.flagsClear
  runningHasPc := by simp
  runningNoFault := by simp
  faultedPc _ := ⟨hs.runningHasPc hrun, rfl⟩
  absentAfterLast := hs.absentAfterLast
  romWf := hs.romWf
  romInside := hs.romInside

/-- A cycle that runs an instruction keeps the invariant (R90). -/
theorem haltTest_tick_keeps_inv {s t : State} {i : Instr} (hs : s.Inv) (hrun : s.running = true)
    (hfetch : fetchInstr s = .ok i) (hexec : exec i s = .next t) : (haltTest (tick t)).Inv := by
  obtain ⟨⟨hfault, _⟩, hlen, hrom⟩ := exec_keeps hexec
  obtain ⟨hpc, hinside, _⟩ := (fetchInstr_eq_ok s).1 hfetch
  have hnoFault : (haltTest (tick t)).fault = 0 := by simp [hfault, hs.runningNoFault hrun]
  exact {
    flagsClear := flagsClear_haltTest (flagsClear_tick t)
    runningHasPc := by simp
    runningNoFault := fun _ => hnoFault
    faultedPc := fun h => absurd hnoFault h
    absentAfterLast := by
      intro habsent _
      obtain ⟨hidx, hlast⟩ := exec_pcAbsent hexec hpc (by simpa using habsent)
      simp only [haltTest_pcIdx, tick_pcIdx, haltTest_progLen, tick_progLen, hidx, hlen]
      omega
    romWf := by simpa [hrom] using hs.romWf
    romInside := by simpa [hrom, hlen] using hs.romInside }

/-- Every cycle keeps the invariant (R18, R23, R100). -/
theorem step_keeps_inv {s u : State} (hs : s.Inv) (h : step s = .next u) : u.Inv := by
  rcases step_next h with ⟨_, rfl⟩ | ⟨hrun, f, _, rfl⟩ | ⟨hrun, i, t, hfetch, hexec, rfl⟩
  · exact hs
  · exact raise_keeps_inv hs hrun f
  · exact haltTest_tick_keeps_inv hs hrun hfetch hexec

end Sys2Proof.Machine
end

section
/-! The machine over decoded instructions simulates `step` (00_scope.md R9, 10_state.md R18): first the decoded view of each
state operation, then of the program and its fetch, then the cycle and runs of any length. -/

namespace Sys2Proof.Machine

/-! ### The decoded view of the state's operations -/

@[simp] theorem decodedView_running (s : State) : s.decodedView.running = s.running := rfl
@[simp] theorem decodedView_bus (s : State) : s.decodedView.bus = s.bus := rfl
@[simp] theorem decodedView_c (s : State) : s.decodedView.c = readReg .C s := rfl
@[simp] theorem get_decodedView (s : State) (r : Reg) : s.decodedView.get r = readReg r s := by cases r <;> rfl

theorem decodedView_pc_of_present {s : State} (h : s.pcAbsent = false) : s.decodedView.pc = some s.pcIdx := by
  simp [State.decodedView, h]

@[simp] theorem decodedView_writeBus (v : Byte) (s : State) :
    (writeBus v s).decodedView = { s.decodedView with bus := v } := rfl

@[simp] theorem decodedView_writeReg (r : Reg) (v : Byte) (s : State) :
    (writeReg r v s).decodedView = s.decodedView.set v r := by cases r <;> rfl

/-- A fault is recorded with the pc, which is the index of the faulting cycle (R151). -/
theorem decodedView_raise (f : Fault) (s : State) :
    (raise f s).decodedView = { s.decodedView with running := false, fault := some (f, s.pcIdx) } := by
  cases f <;> rfl

/-- An advance and the halt test are the decoded machine's `goNext` (R45, R99). -/
@[simp] theorem decodedView_haltTest_advance (s : State) :
    (haltTest (advance s)).decodedView = DecodedState.goNext s.progLen.val s.pcIdx s.decodedView := by
  by_cases h : s.pcIdx.toNat + 1 < s.progLen.val
  · simp [advance, nextAddr, DecodedState.goNext, h, State.decodedView]
  · simp [advance, nextAddr, DecodedState.goNext, h, State.decodedView]

@[simp] theorem decodedView_haltTest_jumpTo (a : Index) (s : State) :
    (haltTest (jumpTo a s)).decodedView = { s.decodedView with pc := some a } := rfl

/-- A conditional jump and the halt test, for a condition `c` that the machine computes as `b` (R132 to R134). -/
theorem decodedView_haltTest_branch {b : Bool} {c : Prop} [Decidable c] (h : b = true ↔ c) (a : Index) (s : State) :
    (haltTest (branch b a s)).decodedView =
      if c then { s.decodedView with pc := some a } else DecodedState.goNext s.progLen.val s.pcIdx s.decodedView := by
  cases b <;> simp_all

/-! ### The decoded program -/

@[simp] theorem length_decodedProgram (s : State) : s.decodedProgram.length = s.progLen.val := by
  simp [State.decodedProgram]

theorem getElem?_decodedProgram_of_lt {s : State} {i : Index} (h : i.toNat < s.progLen.val) :
    s.decodedProgram[i.toNat]? = some (decode (Memory.readWord s.rom i)) := by
  simp [State.decodedProgram, h]

theorem getElem?_decodedProgram_of_le {s : State} {i : Index} (h : s.progLen.val ≤ i.toNat) :
    s.decodedProgram[i.toNat]? = none := by
  simp [h]

theorem decodedProgram_congr {s u : State} (hrom : u.rom = s.rom) (hlen : u.progLen = s.progLen) :
    u.decodedProgram = s.decodedProgram := by
  simp [State.decodedProgram, hrom, hlen]

/-! ### One cycle -/

theorem decodedStep_of_halted (prog : List Decoded) {q : DecodedState} (h : q.running = false) :
    decodedStep prog q = q := by
  simp [decodedStep, h]

/-- Where `step` takes a fault, so does the decoded machine (R151, R157). -/
theorem decodedStep_of_fetchInstr_error {s : State} {f : Fault} (hrun : s.running = true) (hpc : s.pcAbsent = false)
    (hfetch : fetchInstr s = .error f) :
    decodedStep s.decodedProgram s.decodedView =
      { s.decodedView with running := false, fault := some (f, s.pcIdx) } := by
  rcases (fetchInstr_eq_error s).1 hfetch with ⟨rfl, habsent | hle⟩ | ⟨_, hlt, ⟨rfl, hdecode⟩ | ⟨rfl, hdecode⟩⟩
  · simp [hpc] at habsent
  · simp [decodedStep, hrun, decodedView_pc_of_present hpc, getElem?_decodedProgram_of_le hle]
  · simp [decodedStep, hrun, decodedView_pc_of_present hpc, getElem?_decodedProgram_of_lt hlt, hdecode]
  · simp [decodedStep, hrun, decodedView_pc_of_present hpc, getElem?_decodedProgram_of_lt hlt, hdecode]

/-- Where `step` runs an instruction, the decoded machine runs the same one (R9, R90). -/
theorem decodedStep_of_fetchInstr_ok {s : State} {i : Instr} (hrun : s.running = true) (hfetch : fetchInstr s = .ok i) :
    decodedStep s.decodedProgram s.decodedView = decodedInstr s.progLen.val s.pcIdx i s.decodedView := by
  obtain ⟨hpc, hlt, hdecode⟩ := (fetchInstr_eq_ok s).1 hfetch
  simp [decodedStep, hrun, decodedView_pc_of_present hpc, getElem?_decodedProgram_of_lt hlt, hdecode]

/-- The handler, the tick and the halt test of an instruction, seen without flags, are its decoded cycle (R102). -/
theorem decodedView_haltTest_tick_exec {s t : State} {i : Instr} (hflags : s.flagsClear) (hpc : s.pcAbsent = false)
    (hexec : exec i s = .next t) :
    (haltTest (tick t)).decodedView = decodedInstr s.progLen.val s.pcIdx i s.decodedView := by
  cases i <;> cases hexec
  case mov v r => simp [tick_setLoad (flagsClear_writeBus hflags v), decodedInstr]
  case mvc r => simp [haltTest_tick_of_flagsClear (flagsClear_writeReg hflags _ _), hpc, decodedInstr]
  case add r => simp [tick_of_flagsClear (flagsClear_writeReg hflags _ _), decodedInstr, DecodedState.set]
  case sub r => simp [tick_of_flagsClear (flagsClear_writeReg hflags _ _), decodedInstr, DecodedState.set]
  case cop r =>
    cases r
    case A => simp [tick_cop_of_ne_C hflags, decodedInstr, DecodedState.set]
    case B => simp [tick_cop_of_ne_C hflags, decodedInstr, DecodedState.set]
    case C => simp [tick_cop_C hflags, decodedInstr, DecodedState.set]
  case jmp a => simp [tick_of_flagsClear hflags, decodedInstr]
  case jml v a =>
    rw [tick_branch, tick_of_flagsClear hflags]
    exact decodedView_haltTest_branch (lessThan_iff _ v) a s
  case jmg v a =>
    rw [tick_branch, tick_of_flagsClear hflags]
    exact decodedView_haltTest_branch (greaterThan_iff _ v) a s
  case jme v a =>
    rw [tick_branch, tick_of_flagsClear hflags]
    exact decodedView_haltTest_branch (equalTo_iff _ v) a s
  case hlt =>
    have hstopped : ({ s with running := false } : State).flagsClear := hflags
    rw [haltTest_tick_of_flagsClear hstopped hpc]
    rfl

/-- Settles O55: the three things a cycle can do (`step_next`) are the decoded machine's three. -/
theorem decodedMachineSimulatesStep : Obligations.DecodedMachineSimulatesStep := by
  intro s u hs h
  rcases step_next h with ⟨hhalted, rfl⟩ | ⟨hrun, f, hfetch, rfl⟩ | ⟨hrun, i, t, hfetch, hexec, rfl⟩
  · rw [decodedStep_of_halted _ (by simpa using hhalted)]
  · rw [decodedView_raise, decodedStep_of_fetchInstr_error hrun (hs.runningHasPc hrun) hfetch]
  · rw [decodedView_haltTest_tick_exec hs.flagsClear (hs.runningHasPc hrun) hexec,
      decodedStep_of_fetchInstr_ok hrun hfetch]

/-! ### Runs -/

/-- Settles O56, by induction on the number of cycles: each keeps the invariant and the program and is simulated. -/
theorem decodedMachineSimulatesRuns : Obligations.DecodedMachineSimulatesRuns := by
  intro n
  induction n with
  | zero => exact fun s _ => ⟨s, rfl, rfl⟩
  | succ n ih =>
    intro s hs
    obtain ⟨w, hstep⟩ := step_completes s
    obtain ⟨hrom, hlen⟩ := step_keeps_program hstep
    obtain ⟨u, hrun, hview⟩ := ih w (step_keeps_inv hs hstep)
    refine ⟨u, by rw [run_succ_of_step hstep, hrun], ?_⟩
    rw [hview, decodedProgram_congr hrom hlen, decodedMachineSimulatesStep s w hs hstep, Function.iterate_succ_apply]

end Sys2Proof.Machine
end

section
/-! The state's own rules (10_state.md): who sets and clears the flags, who writes and reads the bus, what stops a machine and
writes its fault registers, and where reset leaves it. -/

namespace Sys2Proof.Machine

/-! ### What a handler does to the flags, the bus and `running` -/

/-- A handler sets a load flag only as `mov` to its register or as `cop`, and clears none (R14). -/
theorem loadPending_exec_iff {i : Instr} {s u : State} (h : exec i s = .next u) (r : Reg) :
    loadPending r u = true ↔ loadPending r s = true ∨ (∃ v, i = .mov v r) ∨ (∃ t, i = .cop t ∧ r = .C) := by
  cases i <;> cases h
  case mov v t =>
    rcases eq_or_ne r t with rfl | hr
    · simp
    · simp [hr, hr.symm]
  case cop t => by_cases hr : r = .C <;> simp [hr]
  case hlt => cases r <;> simp [loadPending]
  all_goals simp

/-- A handler sets an enable flag only as `cop` of its register, and clears none (R14). -/
theorem enablePending_exec_iff {i : Instr} {s u : State} (h : exec i s = .next u) (r : Reg) :
    enablePending r u = true ↔ enablePending r s = true ∨ i = .cop r := by
  cases i <;> cases h
  case cop t =>
    rcases eq_or_ne r t with rfl | hr
    · simp
    · simp [hr, hr.symm]
  case hlt => cases r <;> simp [enablePending]
  all_goals simp

/-- `mov` leaves its immediate on the bus (R110). -/
theorem bus_of_exec_mov {v : Byte} {t : Reg} {s u : State} (h : exec (.mov v t) s = .next u) : u.bus = v := by
  cases h
  simp

/-- Every other handler leaves the bus as it was (R11). -/
theorem bus_of_exec_of_ne_mov {i : Instr} {s u : State} (hi : ∀ v t, i ≠ .mov v t) (h : exec i s = .next u) :
    u.bus = s.bus := by
  cases i <;> cases h
  case mov v t => exact absurd rfl (hi v t)
  all_goals simp

/-- `hlt` alone clears `running` in a handler, and none sets it (R24). -/
theorem running_exec_iff {i : Instr} {s u : State} (h : exec i s = .next u) :
    u.running = true ↔ s.running = true ∧ i ≠ .hlt := by
  cases i <;> cases h <;> simp

/-! ### No handler reads the bus: a bus write before it may as well come after it (R11) -/

@[simp] theorem writeReg_writeBus (r : Reg) (v b : Byte) (s : State) :
    writeReg r v (writeBus b s) = writeBus b (writeReg r v s) := by cases r <;> rfl

@[simp] theorem setLoad_writeBus (r : Reg) (p : Bool) (b : Byte) (s : State) :
    setLoad r p (writeBus b s) = writeBus b (setLoad r p s) := by cases r <;> rfl

@[simp] theorem setEnable_writeBus (r : Reg) (p : Bool) (b : Byte) (s : State) :
    setEnable r p (writeBus b s) = writeBus b (setEnable r p s) := by cases r <;> rfl

@[simp] theorem writePc_writeBus (p : Option Index) (b : Byte) (s : State) :
    writePc p (writeBus b s) = writeBus b (writePc p s) := by cases p <;> rfl

@[simp] theorem advance_writeBus (b : Byte) (s : State) : advance (writeBus b s) = writeBus b (advance s) :=
  writePc_writeBus (nextAddr s.pcIdx s) b s

@[simp] theorem branch_writeBus (p : Bool) (a : Index) (b : Byte) (s : State) :
    branch p a (writeBus b s) = writeBus b (branch p a s) := by
  cases p
  case false => simp
  case true => rfl

/-- `mov` overwrites the bus, so it does not see what was there (R110). -/
theorem exec_mov_writeBus (v : Byte) (t : Reg) (b : Byte) (s : State) :
    exec (.mov v t) (writeBus b s) = exec (.mov v t) s := rfl

/-- Every other handler carries a bus write through unchanged. -/
theorem exec_writeBus_of_ne_mov {i : Instr} {s u : State} (hi : ∀ v t, i ≠ .mov v t) (h : exec i s = .next u) (b : Byte) :
    exec i (writeBus b s) = .next (writeBus b u) := by
  cases i <;> cases h
  case mov v t => exact absurd rfl (hi v t)
  case mvc t => simp [exec, execMvc]
  case add t => simp [exec, execAdd]
  case sub t => simp [exec, execSub]
  case cop t => simp [exec, execCop]
  case jmp a => rfl
  case jml v a => simp [exec, execJml]
  case jmg v a => simp [exec, execJmg]
  case jme v a => simp [exec, execJme]
  case hlt => rfl

/-! ### Reset and the Halted machine -/

/-- A Halted machine's cycle changes nothing (R91). -/
theorem step_of_halted {s : State} (h : s.running = false) : step s = .next s := by
  simp [step, h]

/-- `State.reset` is the reset of the empty program with the default INIT (log entries 3 and 4). -/
theorem reset_eq_hostReset : State.reset = hostReset {} [] 0 := rfl

/-- Reset of a canonical program image meets the invariant (R29). -/
theorem hostReset_inv (init : Config.Init) {rom : Memory} {n : Fin 257} (hwf : Memory.wf rom)
    (hinside : ∀ c ∈ rom, c.1 < Config.wordBytes * n.val) : (hostReset init rom n).Inv where
  flagsClear := ⟨rfl, rfl, rfl, rfl, rfl, rfl⟩
  runningHasPc h := decide_eq_false (Nat.one_le_iff_ne_zero.1 (of_decide_eq_true h))
  runningNoFault _ := rfl
  faultedPc h := absurd rfl h
  absentAfterLast habsent hlen := absurd (of_decide_eq_true habsent) hlen
  romWf := hwf
  romInside := hinside

/-! ### The obligations -/

/-- Settles O36: the three things a cycle can do keep the invariant (`step_keeps_inv`). -/
theorem stepKeepsInvariant : Obligations.StepKeepsInvariant := fun _ _ => step_keeps_inv

/-- Settles O37, from what a handler and a register's tick do to one flag. -/
theorem flagsAreSetByMovAndCopOnly : Obligations.FlagsAreSetByMovAndCopOnly := by
  refine ⟨fun i s u r h => ⟨loadPending_exec_iff h r, enablePending_exec_iff h r⟩,
    fun r r' s => ⟨loadPending_tickReg s r r', enablePending_tickReg s r r'⟩, fun s => ?_⟩
  obtain ⟨u, hexec⟩ := exec_next s (.cop .C)
  exact ⟨u, hexec, (loadPending_exec_iff hexec .C).2 (.inr (.inr ⟨.C, rfl, rfl⟩)),
    (enablePending_exec_iff hexec .C).2 (.inr rfl)⟩

/-- Settles O38: such a cycle ends with the tick and the halt test. -/
theorem cycleEndsWithFlagsClear : Obligations.CycleEndsWithFlagsClear := by
  intro s u i hrun hfetch h
  rcases step_next h with ⟨hhalted, _⟩ | ⟨_, f, herror, _⟩ | ⟨_, _, t, _, _, rfl⟩
  · simp [hrun] at hhalted
  · simp [hfetch] at herror
  · exact flagsClear_haltTest (flagsClear_tick t)

/-- Settles O40: `mov` overwrites the bus, and every other handler commutes with a write of it. -/
theorem busWritersAndReaders : Obligations.BusWritersAndReaders := by
  refine ⟨fun i s u h => ?_, fun r s => ⟨?_, fun hload => ?_, fun hload b r' => ?_⟩, fun s => rfl⟩
  · by_cases hi : ∃ v t, i = .mov v t
    · obtain ⟨v, t, rfl⟩ := hi
      exact ⟨.inl ⟨v, t, rfl, bus_of_exec_mov h⟩, fun b => ⟨u, (exec_mov_writeBus v t b s).trans h, rfl⟩⟩
    · have hne : ∀ v t, i ≠ .mov v t := fun v t hmov => hi ⟨v, t, hmov⟩
      exact ⟨.inr ⟨hne, bus_of_exec_of_ne_mov hne h⟩, fun b => ⟨writeBus b u, exec_writeBus_of_ne_mov hne h b, rfl⟩⟩
  · simp
  · simp [hload]
  · change readReg r' (tickReg r (writeBus b s)) = readReg r' s
    simp [hload]

/-- Settles O41: with the flags clear before, an enable flag is pending only for the operand of a `cop`. -/
theorem atMostOneBusWriter : Obligations.AtMostOneBusWriter := by
  intro i s u hflags h
  have hcop : ∀ r, enablePending r u = true ↔ i = .cop r := fun r => by
    simp [enablePending_exec_iff h, (flagsClear_iff.1 hflags).2 r]
  refine ⟨fun r r' hr hr' => ?_, ?_⟩
  · exact Instr.cop.inj (((hcop r).1 hr).symm.trans ((hcop r').1 hr'))
  · rintro ⟨v, t, rfl⟩ r
    simpa using hcop r

/-- Settles O42, by what a cycle can do (`step_next`). -/
theorem runningIsClearedByHaltEndOrFault : Obligations.RunningIsClearedByHaltEndOrFault := by
  refine ⟨fun s u h => ?_, fun init rom n => by simp [hostReset, Nat.one_le_iff_ne_zero]⟩
  rcases step_next h with ⟨hhalted, rfl⟩ | ⟨hrun, f, hfetch, rfl⟩ | ⟨hrun, i, t, hfetch, hexec, rfl⟩
  · simp [hhalted]
  · simp [hrun, hfetch]
  · have hrunning : t.running = true ↔ i ≠ .hlt := by simp [running_exec_iff hexec, hrun]
    simp [hrun, hfetch, hrunning, or_iff_not_imp_left]

/-- Settles O43, by what a cycle can do (`step_next`); a machine with a fault recorded is Halted, by the invariant. -/
theorem faultRegistersAreWrittenOnce : Obligations.FaultRegistersAreWrittenOnce := by
  refine ⟨⟨rfl, rfl, rfl⟩, fun _ _ _ => ⟨rfl, rfl⟩, fun s u h => ?_, fun s hs hfault => ?_⟩
  · rcases step_next h with ⟨_, rfl⟩ | ⟨hrun, f, hfetch, rfl⟩ | ⟨_, i, t, _, hexec, rfl⟩
    · exact .inl ⟨rfl, rfl⟩
    · exact .inr ⟨hrun, rfl, f, hfetch, rfl, rfl⟩
    · obtain ⟨⟨hfault, haddr⟩, _, _⟩ := exec_keeps hexec
      exact .inl (by simp [hfault, haddr])
  · have hhalted : s.running = false := Bool.eq_false_iff.2 fun hrun => hfault (hs.runningNoFault hrun)
    exact run_of_step_self (step_of_halted hhalted)

/-- Settles O35: `State.reset` is the reset of the empty program, whose image is canonical. -/
theorem resetMeetsInvariant : Obligations.ResetMeetsInvariant :=
  ⟨reset_eq_hostReset ▸ hostReset_inv {} Memory.wf_nil (by simp), fun init _ _ => hostReset_inv init⟩

/-- Settles O48: each field is the one R29 lists; the two that depend on PROG_LEN are decided by it. -/
theorem resetState : Obligations.ResetState :=
  ⟨fun _ _ _ => ⟨rfl, rfl, rfl, rfl, ⟨rfl, rfl, rfl, rfl, rfl, rfl⟩, rfl, decide_eq_true_iff, decide_eq_true_iff,
    rfl, rfl, rfl, rfl⟩, rfl⟩

/-- Settles O50: the reset of the empty program is Halted. -/
theorem modelResetIsTheEmptyProgram : Obligations.ModelResetIsTheEmptyProgram :=
  ⟨reset_eq_hostReset, run_of_step_self (step_of_halted rfl)⟩

/-- Settles O51: the edge answers `assertReset`, whose pc is index 0 of a program that is not empty. -/
theorem resetPortRestartsTheMachine : Obligations.ResetPortRestartsTheMachine := by
  intro init s hlen
  have hpos : s.progLen.val ≠ 0 := Nat.one_le_iff_ne_zero.1 hlen
  refine ⟨assertReset init s, rfl, ⟨rfl, fun _ => rfl⟩, ⟨rfl, rfl, rfl, rfl, rfl, rfl⟩, ?_, if_pos hlen⟩
  simp [State.outputs, assertReset, hostReset, hpos, hlen]

end Sys2Proof.Machine
end

section
/-! The program memory and what is in it (20_memory.md): words in byte streams, the assembler's words, the word the host places,
and that a cycle reads the word at the pc and writes none. -/

namespace Sys2Proof.Machine

/-! ### Words in byte streams (R48) -/

/-- The three bytes of a word at the head of a stream decode to what the word carries. -/
@[simp] theorem decodeBytes_wordByte (w : Word) (rest : List Byte) :
    decodeBytes (wordByte w 0 :: wordByte w 1 :: wordByte w 2 :: rest) = .word (decode w) rest := by
  simp [decodeBytes]

theorem decodeTableWord_eq_some {nbits w : Nat} {i : Instr} :
    decodeTableWord nbits w = some i ↔ w % 2 ^ nbits < 2 ^ 24 ∧ decode (BitVec.ofNat 24 (w % 2 ^ nbits)) = .ok i := by
  unfold decodeTableWord
  split
  case isFalse hbig => exact iff_of_false nofun fun h => hbig h.1
  case isTrue hfits =>
    simp only [decodeBytes_wordByte, hfits, true_and]
    cases decode (BitVec.ofNat 24 (w % 2 ^ nbits)) <;> simp

/-! ### Assembled words (R43, R86) -/

/-- Decoding undoes encoding: each field of the encoded word is the one its format asks for (30_encoding.md R70). -/
theorem decode_encode (i : Instr) : decode (encode i) = .ok i := by
  have hknown : (opcodeField (encode i)).toNat ≤ 9 := by
    rw [opcodeField_encode]
    cases i <;> simp [opcodeNumber]
  rw [decode_of_known hknown (mbzField_encode i), opcodeField_encode]
  cases i <;> simp [opcodeNumber, decodeRI, decodeR, decodeJ, decodeIJ, decodeN, Instr.regOperand, Instr.immOperand,
    Instr.tgtOperand]

/-- The word for malformed operands: its opcode is known and its `mbz` is not 0 (R86). -/
theorem decode_malformed (opcode : Fin 10) :
    decode ((BitVec.ofNat 24 opcode.val <<< 20) ||| 0x030000) = .formatError := by
  revert opcode
  decide

/-- The word of a line decodes to what the line stands for. -/
theorem resolve_of_assembleWord {α : Type} [DecidableEq α] {labels : List α} {x : SourceInstr α} {w : Word}
    (h : assembleWord labels x = some w) : resolve labels x = some (decode w) := by
  unfold assembleWord at h
  split at h
  case h_1 => cases h; rfl
  case h_2 opcode => cases h; exact congrArg some (decode_malformed opcode).symm
  case h_3 =>
    split at h
    case h_1 i hx => cases h; rw [hx, decode_encode]
    case h_2 => cases h

/-- The assembler emits one word for each line, in order. -/
theorem forall₂_assembleLines {α : Type} [DecidableEq α] {labels : List α} {p : List (α × SourceInstr α)} {ws : List Word}
    (h : assembleLines labels p = some ws) : List.Forall₂ (fun line w => assembleWord labels line.2 = some w) p ws := by
  induction p generalizing ws with
  | nil => cases h; exact .nil
  | cons line rest ih =>
    simp only [assembleLines] at h
    split at h
    case h_1 w tail hw htail => cases h; exact .cons hw (ih htail)
    case h_2 => cases h

/-- What assembling asks of a program: different labels, room in the program memory, and a word for each line. -/
theorem assemble_eq_some {α : Type} [DecidableEq α] {p : List (α × SourceInstr α)} {ws : List Word} :
    assemble p = some ws ↔
      (p.map Prod.fst).Nodup ∧ p.length ≤ Config.maxProgLen ∧ assembleLines (p.map Prod.fst) p = some ws := by
  simp [assemble, and_assoc]

/-- The index of a label is its position, kept in 8 bits without loss (R43). -/
theorem labelIndex_eq_some {α : Type} [DecidableEq α] {labels : List α} {l : α} {j : Index} :
    labelIndex labels l = some j ↔ j.toNat = labels.idxOf l := by
  have hj := j.isLt
  unfold labelIndex Config.maxProgLen
  split
  case isTrue hlt => simp [← BitVec.toNat_inj, Nat.mod_eq_of_lt hlt, eq_comm]
  case isFalse hge => simp; omega

/-- Where no label repeats, the label of line `k` has the index `k` (R43). -/
theorem labelIndex_of_getElem? {α : Type} [DecidableEq α] {labels : List α} {k : Nat} {l : α} (hnodup : labels.Nodup)
    (hl : labels[k]? = some l) (hk : k < Config.maxProgLen) : labelIndex labels l = some (BitVec.ofNat 8 k) := by
  obtain ⟨hlt, rfl⟩ := List.getElem?_eq_some_iff.1 hl
  have hposition := hnodup.idxOf_getElem k hlt
  rw [labelIndex_eq_some, hposition]
  exact Nat.mod_eq_of_lt hk

/-! ### A cycle and the program image -/

/-- `s` with another program image; PROG_LEN stays. -/
def State.withRom (m : Memory) (s : State) : State := { s with rom := m }

section
variable (m : Memory) (s : State)

@[simp] theorem withRom_bus : (s.withRom m).bus = s.bus := rfl
@[simp] theorem readReg_withRom (r : Reg) : readReg r (s.withRom m) = readReg r s := by cases r <;> rfl
@[simp] theorem loadPending_withRom (r : Reg) : loadPending r (s.withRom m) = loadPending r s := by cases r <;> rfl
@[simp] theorem enablePending_withRom (r : Reg) : enablePending r (s.withRom m) = enablePending r s := by cases r <;> rfl
@[simp] theorem withRom_pcIdx : (s.withRom m).pcIdx = s.pcIdx := rfl
@[simp] theorem withRom_pcAbsent : (s.withRom m).pcAbsent = s.pcAbsent := rfl
@[simp] theorem withRom_running : (s.withRom m).running = s.running := rfl
@[simp] theorem withRom_fault : (s.withRom m).fault = s.fault := rfl
@[simp] theorem withRom_faultAddr : (s.withRom m).faultAddr = s.faultAddr := rfl
@[simp] theorem withRom_progLen : (s.withRom m).progLen = s.progLen := rfl
@[simp] theorem withRom_rom : (s.withRom m).rom = m := rfl

@[simp] theorem writeReg_withRom (r : Reg) (v : Byte) : writeReg r v (s.withRom m) = (writeReg r v s).withRom m := by
  cases r <;> rfl

@[simp] theorem writeBus_withRom (v : Byte) : writeBus v (s.withRom m) = (writeBus v s).withRom m := rfl

@[simp] theorem setLoad_withRom (r : Reg) (b : Bool) : setLoad r b (s.withRom m) = (setLoad r b s).withRom m := by
  cases r <;> rfl

@[simp] theorem setEnable_withRom (r : Reg) (b : Bool) : setEnable r b (s.withRom m) = (setEnable r b s).withRom m := by
  cases r <;> rfl

@[simp] theorem writePc_withRom (p : Option Index) : writePc p (s.withRom m) = (writePc p s).withRom m := by
  cases p <;> rfl

/-- The next address depends on PROG_LEN alone (R45). -/
@[simp] theorem advance_withRom : advance (s.withRom m) = (advance s).withRom m :=
  writePc_withRom m s (nextAddr s.pcIdx s)

@[simp] theorem branch_withRom (b : Bool) (a : Index) : branch b a (s.withRom m) = (branch b a s).withRom m := by
  cases b
  case false => simp
  case true => rfl

@[simp] theorem tickReg_withRom (r : Reg) : tickReg r (s.withRom m) = (tickReg r s).withRom m := by
  apply State.ext_view <;> simp

@[simp] theorem tick_withRom : tick (s.withRom m) = (tick s).withRom m := by simp [tick_eq]

@[simp] theorem haltTest_withRom : haltTest (s.withRom m) = (haltTest s).withRom m := by
  apply State.ext_view <;> simp

@[simp] theorem raise_withRom (f : Fault) : raise f (s.withRom m) = (raise f s).withRom m := rfl

end

/-- No handler reads the program image (R41, R52). -/
theorem exec_withRom {i : Instr} {s t : State} (m : Memory) (h : exec i s = .next t) :
    exec i (s.withRom m) = .next (t.withRom m) := by
  cases i <;> cases h
  case mov v r => simp [exec, execMov]
  case mvc r => simp [exec, execMvc]
  case add r => simp [exec, execAdd]
  case sub r => simp [exec, execSub]
  case cop r => simp [exec, execCop]
  case jmp a => rfl
  case jml v a => simp [exec, execJml]
  case jmg v a => simp [exec, execJmg]
  case jme v a => simp [exec, execJme]
  case hlt => rfl

/-- Fetch and dispatch see the program image at the pc only (R44, R52). -/
theorem fetchInstr_withRom {m : Memory} {s : State} (h : Memory.readWord m s.pcIdx = Memory.readWord s.rom s.pcIdx) :
    fetchInstr (s.withRom m) = fetchInstr s := by
  simp [fetchInstr, fetch, memRead, h]

/-! ### The obligations -/

/-- Settles O39: every cycle keeps the image and its length, so every run does. -/
theorem programMemoryIsReadOnly : Obligations.ProgramMemoryIsReadOnly := by
  intro n s u h
  refine run_induction (P := fun v => v.rom = s.rom ∧ v.progLen = s.progLen) ?_ ⟨rfl, rfl⟩ h
  rintro v w ⟨hrom, hlen⟩ hstep
  obtain ⟨hrom', hlen'⟩ := step_keeps_program hstep
  exact ⟨hrom'.trans hrom, hlen'.trans hlen⟩

/-- Settles O47: the fetch sees the same word, and whatever the cycle then does carries the image through unread. -/
theorem stepReadsOnlyTheFetchedWord : Obligations.StepReadsOnlyTheFetchedWord := by
  intro s u m hword h
  change step (s.withRom m) = .next (u.withRom m)
  have hsame := fetchInstr_withRom hword
  rcases step_next h with ⟨hhalted, rfl⟩ | ⟨hrun, f, hfetch, rfl⟩ | ⟨hrun, i, t, hfetch, hexec, rfl⟩
  · exact step_of_halted hhalted
  · simp [step, hrun, hsame, hfetch]
  · simp [step, hrun, hsame, hfetch, exec_withRom m hexec, endCycle]

/-- Settles O53, from the words of the lines one by one (`forall₂_assembleLines`) and the positions of the labels. -/
theorem assembledProgramDecodes : Obligations.AssembledProgramDecodes := by
  intro α _ p ws h
  obtain ⟨hnodup, hfits, hlines⟩ := assemble_eq_some.1 h
  obtain ⟨hlength, hwords⟩ := List.forall₂_iff_get.1 (forall₂_assembleLines hlines)
  refine ⟨hlength.symm, fun k line hline => ?_, fun k line hline => ?_, fun l j hl hj => ?_⟩
  · obtain ⟨hk, rfl⟩ := List.getElem?_eq_some_iff.1 hline
    have hw := hwords k hk (hlength ▸ hk)
    exact ⟨ws[k], _, List.getElem?_eq_getElem _, resolve_of_assembleWord hw, rfl⟩
  · have hk : k < Config.maxProgLen := (List.getElem?_eq_some_iff.1 hline).1.trans_le hfits
    exact ⟨BitVec.ofNat 8 k, labelIndex_of_getElem? hnodup (by simp [hline]) hk, Nat.mod_eq_of_lt hk⟩
  · rw [labelIndex_eq_some.1 hj, List.idxOf_of_notMem hl, List.length_map]

/-- Settles O54: the placed word is what the fetch reads, at an index that the placing made part of the program. -/
theorem placedInstructionIsFetched : Obligations.PlacedInstructionIsFetched := by
  intro s nbits w i hwf hword
  obtain ⟨_, hdecode⟩ := decodeTableWord_eq_some.1 hword
  have hinside : s.pcIdx.toNat < max s.progLen.val (s.pcIdx.toNat + 1) := by omega
  refine ⟨rfl, (fetchInstr_eq_ok _).2 ⟨rfl, hinside, ?_⟩⟩
  have hread := Memory.readWord_writeWord_same (i := s.pcIdx) (w := BitVec.ofNat 24 (w % 2 ^ nbits)) hwf
  exact (congrArg decode hread).trans hdecode

/-- Settles O8: the three bytes are the word's own (`decodeBytes_wordByte`). -/
theorem imageBytesDecode : Obligations.ImageBytesDecode := decodeBytes_wordByte

end Sys2Proof.Machine
end

section
/-! The instruction word (30_encoding.md): the fields that carry an instruction, what the decoder can answer (R70), and what a row
of the match and mask table asks of the fields (R68). -/

namespace Sys2Proof

/-! ### The fields that carry an instruction -/

/-- The fields of `w` are those of `i`: its opcode number, its operands, and 0 where its format uses no field (R67 to R69). -/
structure HasFieldsOf (w : Word) (i : Instr) : Prop where
  opcode : (opcodeField w).toNat = opcodeNumber i
  mbz : mbzField w = 0
  reg : regField w = i.regOperand
  imm : immField w = i.immOperand
  tgt : tgtField w = i.tgtOperand

/-- The fields of an instruction make up its encoding and no other word. -/
theorem hasFieldsOf_iff {w : Word} {i : Instr} : HasFieldsOf w i ↔ encode i = w := by
  constructor
  · intro h
    have hopcode : opcodeField (encode i) = opcodeField w :=
      BitVec.eq_of_toNat_eq ((opcodeField_encode i).trans h.opcode.symm)
    exact word_eq_of_fields hopcode ((regField_encode i).trans h.reg.symm) ((mbzField_encode i).trans h.mbz.symm)
      ((immField_encode i).trans h.imm.symm) ((tgtField_encode i).trans h.tgt.symm)
  · rintro rfl
    exact ⟨opcodeField_encode i, mbzField_encode i, regField_encode i, immField_encode i, tgtField_encode i⟩

/-- Formats RI, R and N use no target (R68). -/
theorem tgtOperand_eq_zero {i : Instr} (h : opcodeNumber i ≤ 4 ∨ opcodeNumber i = 9) : i.tgtOperand = 0 := by
  cases i <;> simp_all [opcodeNumber, Instr.tgtOperand]

/-- Formats R, J and N use no immediate (R68). -/
theorem immOperand_eq_zero {i : Instr} (h : 1 ≤ opcodeNumber i ∧ opcodeNumber i ≤ 5 ∨ opcodeNumber i = 9) :
    i.immOperand = 0 := by
  cases i <;> simp_all [opcodeNumber, Instr.immOperand]

/-- Formats J, IJ and N use no register (R68). -/
theorem regOperand_eq_zero {i : Instr} (h : 5 ≤ opcodeNumber i) : i.regOperand = 0 := by
  cases i <;> simp_all [opcodeNumber, Instr.regOperand]

theorem regCode_ne_three (t : Reg) : regCode t ≠ 3 := by
  cases t <;> decide

/-- No instruction is encoded with register code 3 (R65). -/
theorem regOperand_ne_three (i : Instr) : i.regOperand ≠ 3 := by
  cases i
  case mov v t => exact regCode_ne_three t
  case mvc t | add t | sub t | cop t => exact regCode_ne_three t
  all_goals simp [Instr.regOperand]

/-- Every code but 3 is a register's (R65). -/
theorem exists_regCode_of_ne_three {rc : BitVec 2} (h : rc ≠ 3) : ∃ t, rc = regCode t := by
  have hnamed : ∀ rc : BitVec 2, rc ≠ 3 → rc = regCode .A ∨ rc = regCode .B ∨ rc = regCode .C := by decide
  rcases hnamed rc h with ht | ht | ht <;> exact ⟨_, ht⟩

/-! ### What the decoder can answer, format by format -/

theorem decodeRI_cases (w : Word) :
    decodeRI w = .formatError ∨
      ∃ t, regField w = regCode t ∧ tgtField w = 0 ∧ decodeRI w = .ok (.mov (immField w) t) := by
  unfold decodeRI
  split
  case h_1 => exact .inl rfl
  case h_2 t ht => split <;> simp_all [regOfCode_eq_some]

theorem decodeR_cases (mk : Reg → Instr) (w : Word) :
    decodeR mk w = .formatError ∨
      ∃ t, regField w = regCode t ∧ immField w = 0 ∧ tgtField w = 0 ∧ decodeR mk w = .ok (mk t) := by
  unfold decodeR
  split
  case h_1 => exact .inl rfl
  case h_2 t ht =>
    split
    case isTrue hzero =>
      obtain ⟨himm, htgt⟩ := hzero
      exact .inr ⟨t, regOfCode_eq_some.1 ht, himm, htgt, rfl⟩
    case isFalse => exact .inl rfl

theorem decodeJ_cases (w : Word) :
    decodeJ w = .formatError ∨ regField w = 0 ∧ immField w = 0 ∧ decodeJ w = .ok (.jmp (tgtField w)) := by
  unfold decodeJ
  split <;> simp_all

theorem decodeIJ_cases (mk : Byte → Index → Instr) (w : Word) :
    decodeIJ mk w = .formatError ∨ regField w = 0 ∧ decodeIJ mk w = .ok (mk (immField w) (tgtField w)) := by
  unfold decodeIJ
  split <;> simp_all

theorem decodeN_cases (w : Word) :
    decodeN w = .formatError ∨ regField w = 0 ∧ immField w = 0 ∧ tgtField w = 0 ∧ decodeN w = .ok .hlt := by
  unfold decodeN
  split <;> simp_all

theorem decode_of_reserved {w : Word} (h : 0xA ≤ (opcodeField w).toNat) : decode w = .unknownOpcode := if_pos h

theorem decode_of_mbz_ne_zero {w : Word} (h : (opcodeField w).toNat ≤ 9) (hz : mbzField w ≠ 0) :
    decode w = .formatError :=
  (if_neg (by omega)).trans (if_pos hz)

/-- With a known opcode the decoder reads an instruction that has the word's fields, or it answers a format error (R70). -/
theorem decode_cases_of_known {w : Word} (h : (opcodeField w).toNat ≤ 9) :
    decode w = .formatError ∨ ∃ i, HasFieldsOf w i ∧ decode w = .ok i := by
  by_cases hz : mbzField w = 0
  case neg => exact .inl (decode_of_mbz_ne_zero h hz)
  rw [decode_of_known h hz]
  split
  case h_1 hop => exact (decodeRI_cases w).imp_right fun ⟨t, hr, ht, hok⟩ => ⟨.mov _ t, ⟨hop, hz, hr, rfl, ht⟩, hok⟩
  case h_2 hop => exact (decodeR_cases .mvc w).imp_right fun ⟨t, hr, hi, ht, hok⟩ => ⟨.mvc t, ⟨hop, hz, hr, hi, ht⟩, hok⟩
  case h_3 hop => exact (decodeR_cases .add w).imp_right fun ⟨t, hr, hi, ht, hok⟩ => ⟨.add t, ⟨hop, hz, hr, hi, ht⟩, hok⟩
  case h_4 hop => exact (decodeR_cases .sub w).imp_right fun ⟨t, hr, hi, ht, hok⟩ => ⟨.sub t, ⟨hop, hz, hr, hi, ht⟩, hok⟩
  case h_5 hop => exact (decodeR_cases .cop w).imp_right fun ⟨t, hr, hi, ht, hok⟩ => ⟨.cop t, ⟨hop, hz, hr, hi, ht⟩, hok⟩
  case h_6 hop => exact (decodeJ_cases w).imp_right fun ⟨hr, hi, hok⟩ => ⟨.jmp _, ⟨hop, hz, hr, hi, rfl⟩, hok⟩
  case h_7 hop => exact (decodeIJ_cases .jml w).imp_right fun ⟨hr, hok⟩ => ⟨.jml _ _, ⟨hop, hz, hr, rfl, rfl⟩, hok⟩
  case h_8 hop => exact (decodeIJ_cases .jmg w).imp_right fun ⟨hr, hok⟩ => ⟨.jmg _ _, ⟨hop, hz, hr, rfl, rfl⟩, hok⟩
  case h_9 hop => exact (decodeIJ_cases .jme w).imp_right fun ⟨hr, hok⟩ => ⟨.jme _ _, ⟨hop, hz, hr, rfl, rfl⟩, hok⟩
  case h_10 =>
    have hop : (opcodeField w).toNat = 9 := by grind
    exact (decodeN_cases w).imp_right fun ⟨hr, hi, ht, hok⟩ => ⟨.hlt, ⟨hop, hz, hr, hi, ht⟩, hok⟩

/-! ### The decoder's three answers -/

theorem decode_eq_unknownOpcode_iff {w : Word} : decode w = .unknownOpcode ↔ 0xA ≤ (opcodeField w).toNat := by
  refine ⟨fun h => ?_, decode_of_reserved⟩
  by_contra hlt
  rcases decode_cases_of_known (w := w) (by omega) with herror | ⟨i, _, hok⟩
  · simp [h] at herror
  · simp [h] at hok

/-- The decoder reads an instruction exactly from the word that has its fields. -/
theorem decode_eq_ok_iff {w : Word} {i : Instr} : decode w = .ok i ↔ HasFieldsOf w i := by
  constructor
  · intro h
    have hknown : (opcodeField w).toNat ≤ 9 := by
      by_contra hgt
      simp [decode_of_reserved (w := w) (by omega)] at h
    rcases decode_cases_of_known hknown with herror | ⟨j, hfields, hok⟩
    · simp [h] at herror
    · obtain rfl : i = j := Decoded.ok.inj (h.symm.trans hok)
      exact hfields
  · intro h
    rw [← hasFieldsOf_iff.1 h]
    exact Machine.decode_encode i

/-- A known opcode with fields that no instruction has is a format error (R71 b). -/
theorem decode_eq_formatError {w : Word} (h : (opcodeField w).toNat ≤ 9) (hno : ∀ i, ¬ HasFieldsOf w i) :
    decode w = .formatError :=
  (decode_cases_of_known h).resolve_right fun ⟨i, hfields, _⟩ => hno i hfields

/-! ### What a row of the match and mask table asks of the fields -/

theorem and_mask_of_fits {row : EncRow} {w : Word} (h : row.fits w = true) : w &&& row.mask = row.pattern := by
  simp only [EncRow.fits, Bool.and_eq_true, beq_iff_eq] at h
  obtain ⟨hmask, _⟩ := h
  exact hmask

/-- A field inside the row's mask has the row's value. -/
theorem field_of_fits {row : EncRow} {w : Word} (h : row.fits w = true) {start len : Nat} {v : BitVec len}
    (hmask : row.mask.extractLsb' start len = BitVec.allOnes len) (hpattern : row.pattern.extractLsb' start len = v) :
    w.extractLsb' start len = v := by
  rw [← hpattern, ← and_mask_of_fits h, BitVec.extractLsb'_and, hmask, BitVec.and_allOnes]

/-- Every row of the table fixes the opcode nibble, to the row's place, and `mbz`, to 0 (R67 to R69). -/
theorem encRows_fix_opcode_mbz {k : Nat} {row : EncRow} (hrow : encRows[k]? = some row) :
    row.mask.extractLsb' 20 4 = BitVec.allOnes 4 ∧ (row.pattern.extractLsb' 20 4).toNat = k ∧
    row.mask.extractLsb' 16 2 = BitVec.allOnes 2 ∧ row.pattern.extractLsb' 16 2 = 0 := by
  obtain ⟨hk, rfl⟩ := List.getElem?_eq_some_iff.1 hrow
  revert k
  decide

/-- Register code 3 is the two bits that R68 excludes. -/
theorem and_regMask_of_regField_eq_three {w : Word} (h : regField w = 3) : w &&& 0x0C0000 = 0x0C0000 := by
  apply word_eq_of_fields
  case hr =>
    change w.extractLsb' 18 2 = 3 at h
    simp [regField, BitVec.extractLsb'_and, h]
  all_goals simp [opcodeField, mbzField, immField, tgtField, BitVec.extractLsb'_and]

/-- A word that fits a row of formats RI or R names a register (R65, R68). -/
theorem exists_regCode_of_fits {row : EncRow} {w : Word} (h : row.fits w = true) :
    ∃ t, row.usesReg = true → regField w = regCode t := by
  by_cases h3 : regField w = 3
  case neg => exact (exists_regCode_of_ne_three h3).imp fun _ ht _ => ht
  simp only [EncRow.fits, and_regMask_of_regField_eq_three h3, BEq.rfl, Bool.and_true, Bool.and_eq_true,
    Bool.not_eq_true'] at h
  obtain ⟨_, hunused⟩ := h
  exact ⟨.A, by simp [hunused]⟩

/-- The table's rows one by one: a word that fits row `k` has the fields of an instruction with opcode number `k`. -/
theorem exists_hasFieldsOf_of_fits {w : Word} {k : Nat} {row : EncRow} (hrow : encRows[k]? = some row)
    (h : row.fits w = true) : ∃ i, HasFieldsOf w i ∧ opcodeNumber i = k := by
  obtain ⟨t, ht⟩ := exists_regCode_of_fits h
  obtain ⟨hopMask, hop, hmbzMask, hmbz⟩ := encRows_fix_opcode_mbz hrow
  replace hop : (opcodeField w).toNat = k := (congrArg BitVec.toNat (field_of_fits h hopMask rfl)).trans hop
  replace hmbz : mbzField w = 0 := field_of_fits h hmbzMask hmbz
  match k, row, hrow with
  | 0, _, rfl => exact ⟨.mov _ t, ⟨hop, hmbz, ht rfl, rfl, field_of_fits h rfl rfl⟩, rfl⟩
  | 1, _, rfl => exact ⟨.mvc t, ⟨hop, hmbz, ht rfl, field_of_fits h rfl rfl, field_of_fits h rfl rfl⟩, rfl⟩
  | 2, _, rfl => exact ⟨.add t, ⟨hop, hmbz, ht rfl, field_of_fits h rfl rfl, field_of_fits h rfl rfl⟩, rfl⟩
  | 3, _, rfl => exact ⟨.sub t, ⟨hop, hmbz, ht rfl, field_of_fits h rfl rfl, field_of_fits h rfl rfl⟩, rfl⟩
  | 4, _, rfl => exact ⟨.cop t, ⟨hop, hmbz, ht rfl, field_of_fits h rfl rfl, field_of_fits h rfl rfl⟩, rfl⟩
  | 5, _, rfl => exact ⟨.jmp _, ⟨hop, hmbz, field_of_fits h rfl rfl, field_of_fits h rfl rfl, rfl⟩, rfl⟩
  | 6, _, rfl => exact ⟨.jml _ _, ⟨hop, hmbz, field_of_fits h rfl rfl, rfl, rfl⟩, rfl⟩
  | 7, _, rfl => exact ⟨.jmg _ _, ⟨hop, hmbz, field_of_fits h rfl rfl, rfl, rfl⟩, rfl⟩
  | 8, _, rfl => exact ⟨.jme _ _, ⟨hop, hmbz, field_of_fits h rfl rfl, rfl, rfl⟩, rfl⟩
  | 9, _, rfl => exact ⟨.hlt, ⟨hop, hmbz, field_of_fits h rfl rfl, field_of_fits h rfl rfl, field_of_fits h rfl rfl⟩, rfl⟩

/-- An encoded word fits its own row of the table (`EncodedWord`, one proof per instruction). -/
theorem encodedWord_statement (i : Instr) : Laws.EncodedWord.Statement i := by
  cases i with
  | mov v t => exact Laws.EncodedWord.mov v t
  | mvc t => exact Laws.EncodedWord.mvc t
  | add t => exact Laws.EncodedWord.add t
  | sub t => exact Laws.EncodedWord.sub t
  | cop t => exact Laws.EncodedWord.cop t
  | jmp a => exact Laws.EncodedWord.jmp a
  | jml v a => exact Laws.EncodedWord.jml v a
  | jmg v a => exact Laws.EncodedWord.jmg v a
  | jme v a => exact Laws.EncodedWord.jme v a
  | hlt => exact Laws.EncodedWord.hlt

/-! ### The obligations -/

/-- Settles O2, by the fields of the encoded word (`decode_encode`). -/
theorem decodeOfEncode : Obligations.DecodeOfEncode := Machine.decode_encode

/-- Settles O3: a decoded word has the fields of its instruction, and these make up the encoding. -/
theorem encodeOfDecode : Obligations.EncodeOfDecode := fun _ _ h => hasFieldsOf_iff.1 (decode_eq_ok_iff.1 h)

/-- Settles O4: a row's mask and pattern fix the fields, and every encoded word fits its row. -/
theorem decodeAgreesWithMaskTable : Obligations.DecodeAgreesWithMaskTable := by
  intro w k row hrow
  constructor
  · intro h
    obtain ⟨i, hfields, hk⟩ := exists_hasFieldsOf_of_fits hrow h
    exact ⟨i, decode_eq_ok_iff.2 hfields, hk⟩
  · rintro ⟨i, hdecode, rfl⟩
    obtain ⟨row', hrow', hfits⟩ := encodedWord_statement i
    obtain rfl : row = row' := Option.some.inj (hrow.symm.trans hrow')
    rwa [encodeOfDecode w i hdecode] at hfits

/-- Settles O5: no format of a known opcode answers `unknownOpcode` (`decode_cases_of_known`). -/
theorem reservedOpcodesAreUnknown : Obligations.ReservedOpcodesAreUnknown := fun _ => decode_eq_unknownOpcode_iff

/-- Settles O6: no instruction with the word's opcode has anything but 0 in that field. -/
theorem unusedFieldsMustBeZero : Obligations.UnusedFieldsMustBeZero := by
  intro w hknown
  refine ⟨fun hz => ?_, fun hop ht => ?_, fun hop hi => ?_, fun hop hr => ?_⟩ <;>
    refine decode_eq_formatError hknown fun i hfields => ?_
  · exact hz hfields.mbz
  · exact ht (hfields.tgt.trans (tgtOperand_eq_zero (hfields.opcode ▸ hop)))
  · exact hi (hfields.imm.trans (immOperand_eq_zero (hfields.opcode ▸ hop)))
  · exact hr (hfields.reg.trans (regOperand_eq_zero (hfields.opcode ▸ hop)))

/-- Settles O7: no instruction has register code 3. -/
theorem registerCodes : Obligations.RegisterCodes := by
  refine ⟨rfl, rfl, rfl, rfl, fun w hop h3 => ?_⟩
  refine decode_eq_formatError (by omega) fun i hfields => ?_
  exact regOperand_ne_three i (hfields.reg.symm.trans h3)

end Sys2Proof
end

section
/-! The machine cycle and the tick (40_cycle_and_tick.md): the tick of one register with its frame, when the ticks of two
registers commute, what the cycle of an instruction amounts to (the net effects of R102), and how a run ends. -/

namespace Sys2Proof.Machine

/-! ### The tick of one register (R96 to R98) -/

/-- With neither of its flags pending a register's tick changes nothing (R98). -/
theorem tickReg_of_no_flag {r : Reg} {s : State} (hload : loadPending r s = false) (henable : enablePending r s = false) :
    tickReg r s = s := by
  apply State.ext_view
  case hreg => simp [hload]
  case hload => intro r'; by_cases hr : r' = r <;> simp [hr, hload]
  case henable => intro r'; by_cases hr : r' = r <;> simp [hr, henable]
  all_goals simp [henable]

/-- A register's tick writes no other register and no other register's flags, nor anything but them and the bus (R96). -/
theorem tickReg_frame (r : Reg) (s : State) :
    RegsKeptBut [r] s (tickReg r s) ∧ FlagsKeptBut [r] [r] s (tickReg r s) ∧ PcHeld s (tickReg r s) ∧
    (tickReg r s).running = s.running ∧ FaultKept s (tickReg r s) ∧ ProgramKept s (tickReg r s) := by
  refine ⟨fun r' hr => ?_, ⟨fun r' hr => ?_, fun r' hr => ?_⟩, ?_, ?_, ?_, ?_⟩
  · simp [List.ne_of_not_mem_cons hr]
  · simp [List.ne_of_not_mem_cons hr]
  · simp [List.ne_of_not_mem_cons hr]
  · simp [PcHeld]
  · simp
  · simp [FaultKept]
  · simp [ProgramKept]

/-! ### What each register meets in the whole tick: A ticks before B, and B before C (R94, R95) -/

theorem readReg_A_tick (s : State) : readReg .A (tick s) = if loadPending .A s then s.bus else readReg .A s := by
  simp [tick_eq]

theorem readReg_B_tick (s : State) :
    readReg .B (tick s) = if loadPending .B s then (tickReg .A s).bus else readReg .B s := by
  simp [tick_eq]

theorem bus_tickReg_B_A (s : State) : (tickReg .B (tickReg .A s)).bus =
    if enablePending .B s then readReg .B (tick s) else (tickReg .A s).bus := by
  simp [tick_eq]

theorem readReg_C_tick (s : State) :
    readReg .C (tick s) = if loadPending .C s then (tickReg .B (tickReg .A s)).bus else readReg .C s := by
  simp [tick_eq]

theorem bus_tick (s : State) :
    (tick s).bus = if enablePending .C s then readReg .C (tick s) else (tickReg .B (tickReg .A s)).bus := by
  simp [tick_eq]

/-! ### When two registers' ticks commute (R95) -/

/-- A register with no flag pending may tick before or after another one. -/
theorem tickReg_comm_of_no_flag {r r' : Reg} {s : State} (hload : loadPending r s = false)
    (henable : enablePending r s = false) : tickReg r (tickReg r' s) = tickReg r' (tickReg r s) := by
  rw [tickReg_of_no_flag hload henable, tickReg_of_no_flag (by simp [hload]) (by simp [henable])]

/-- Two registers that only load take the same bus value in either order. -/
theorem tickReg_comm_of_no_enable {r r' : Reg} {s : State} (h : enablePending r s = false)
    (h' : enablePending r' s = false) : tickReg r (tickReg r' s) = tickReg r' (tickReg r s) := by
  rcases eq_or_ne r r' with rfl | hne
  · rfl
  apply State.ext_view
  case hreg => intro q; by_cases hq : q = r <;> simp [hq, h, h', hne, hne.symm]
  case hload => intro q; by_cases hq : q = r <;> simp [hq]
  case henable => intro q; by_cases hq : q = r <;> simp [hq]
  all_goals simp [h, h', hne, hne.symm]

/-- From clear flags a load is pending after a handler only for a `mov` to that register or, for C, a `cop` (R14). -/
theorem loadPending_exec_of_flagsClear {i : Instr} {s u : State} (hflags : s.flagsClear) (h : exec i s = .next u)
    (r : Reg) : loadPending r u = true ↔ (∃ v, i = .mov v r) ∨ (∃ t, i = .cop t ∧ r = .C) := by
  simp [loadPending_exec_iff h, (flagsClear_iff.1 hflags).1 r]

/-- From clear flags an enable is pending after a handler only for the operand of a `cop` (R14). -/
theorem enablePending_exec_of_flagsClear {i : Instr} {s u : State} (hflags : s.flagsClear) (h : exec i s = .next u)
    (r : Reg) : enablePending r u = true ↔ i = .cop r := by
  simp [enablePending_exec_iff h, (flagsClear_iff.1 hflags).2 r]

/-- After a `cop` that found the flags clear, a register that is neither its operand nor C has no flag pending (R112). -/
theorem no_flag_of_exec_cop {t r : Reg} {s u : State} (hflags : s.flagsClear) (h : exec (.cop t) s = .next u)
    (ht : r ≠ t) (hC : r ≠ .C) : loadPending r u = false ∧ enablePending r u = false := by
  constructor
  · simpa [hC] using loadPending_exec_of_flagsClear hflags h r
  · simpa [ht.symm] using enablePending_exec_of_flagsClear hflags h r

/-! ### The pc at the end of a cycle, as the table of net effects writes it (R99, R102) -/

/-- The advance from the last instruction (R22). -/
theorem advance_of_last {s : State} (h : s.progLen.val ≤ s.pcIdx.toNat + 1) : advance s = writePc none s := by
  rw [advance, (nextAddr_eq_none s).2 h]

theorem haltTest_advance {s : State} (hpc : s.pcAbsent = false) : haltTest (advance s) = netAdvance s := by
  by_cases hlast : s.pcIdx.toNat + 1 < s.progLen.val
  · simp [advance, nextAddr, netAdvance, writePc, haltTest, hlast, hpc]
  · simp [advance, nextAddr, netAdvance, writePc, haltTest, hlast]

theorem haltTest_jumpTo {s : State} (hpc : s.pcAbsent = false) (a : Index) :
    haltTest (jumpTo a s) = { s with pcIdx := a } := by
  simp [jumpTo, writePc, haltTest, hpc]

/-- A conditional jump and the halt test, for a condition `c` that the machine computes as `b` (R132 to R134). -/
theorem haltTest_branch {b : Bool} {c : Prop} [Decidable c] (h : b = true ↔ c) {s : State} (hpc : s.pcAbsent = false)
    (a : Index) : haltTest (branch b a s) = netBranch c a s := by
  cases b
  case false => simp [netBranch, haltTest_advance hpc, ← h]
  case true => simp [netBranch, haltTest_jumpTo hpc, ← h]

/-! ### The rows of the table of net effects, in the machine's own operations (R102) -/

theorem netEffect_mov (v : Byte) (t : Reg) (s : State) :
    netEffect (.mov v t) s = netAdvance (writeReg t v (writeBus v s)) := by
  cases t <;> rfl

theorem netEffect_mvc (t : Reg) (s : State) : netEffect (.mvc t) s = writeReg t (readReg .C s) s := by
  cases t <;> rfl

theorem netEffect_add (t : Reg) (s : State) :
    netEffect (.add t) s = netAdvance (writeReg .C (readReg .C s + readReg t s) s) := by
  cases t <;> rfl

theorem netEffect_sub (t : Reg) (s : State) :
    netEffect (.sub t) s = netAdvance (writeReg .C (readReg .C s - readReg t s) s) := by
  cases t
  case C => rw [BitVec.sub_self]; rfl
  all_goals rfl

theorem netEffect_cop_of_ne_C {t : Reg} (ht : t ≠ .C) (s : State) :
    netEffect (.cop t) s = netAdvance (writeReg .C (readReg t s) (writeBus (readReg t s) s)) := by
  cases t
  case C => exact absurd rfl ht
  all_goals rfl

theorem netEffect_cop_C (s : State) : netEffect (.cop .C) s = netAdvance (writeReg .C s.bus s) := rfl

/-! ### The cycle of an instruction -/

/-- A running machine that has an instruction to run runs its handler, then the tick, then the halt test (R90). -/
theorem step_of_fetchInstr_ok {s : State} {i : Instr} (hrun : s.running = true) (hfetch : fetchInstr s = .ok i) :
    ∃ t, exec i s = .next t ∧ step s = .next (haltTest (tick t)) := by
  obtain ⟨t, hexec⟩ := exec_next s i
  exact ⟨t, hexec, by simp [step, hrun, hfetch, hexec, endCycle]⟩

/-- From clear flags the tick completes `mov v,t`: its register takes the immediate from the bus (R110). -/
theorem tick_of_exec_mov {v : Byte} {t : Reg} {s u : State} (hflags : s.flagsClear) (h : exec (.mov v t) s = .next u) :
    tick u = advance (writeReg t v (writeBus v s)) := by
  cases h
  rw [tick_advance, tick_setLoad (flagsClear_writeBus hflags v), writeBus_bus]

/-- The handler, the tick and the halt test of an instruction do what its row of the table says (R102). -/
theorem haltTest_tick_exec {s u : State} {i : Instr} (hflags : s.flagsClear) (hpc : s.pcAbsent = false)
    (hexec : exec i s = .next u) : haltTest (tick u) = netEffect i s := by
  cases i
  case mov v t => rw [tick_of_exec_mov hflags hexec, haltTest_advance (by simpa using hpc), netEffect_mov]
  all_goals cases hexec
  case mvc t =>
    rw [haltTest_tick_of_flagsClear (flagsClear_writeReg hflags _ _) (by simpa using hpc), netEffect_mvc]
  case add t =>
    rw [tick_advance, tick_of_flagsClear (flagsClear_writeReg hflags _ _), haltTest_advance (by simpa using hpc),
      wrapAdd_eq, netEffect_add]
  case sub t =>
    rw [tick_advance, tick_of_flagsClear (flagsClear_writeReg hflags _ _), haltTest_advance (by simpa using hpc),
      wrapSub_eq, netEffect_sub]
  case cop t =>
    rcases eq_or_ne t .C with rfl | ht
    · rw [tick_advance, tick_cop_C hflags, haltTest_advance (by simpa using hpc), netEffect_cop_C]
    · rw [tick_advance, tick_cop_of_ne_C hflags ht, haltTest_advance (by simpa using hpc), netEffect_cop_of_ne_C ht]
  case jmp a =>
    rw [tick_jumpTo, tick_of_flagsClear hflags, haltTest_jumpTo hpc]
    rfl
  case jml v a =>
    rw [tick_branch, tick_of_flagsClear hflags]
    exact haltTest_branch (lessThan_iff _ v) hpc a
  case jmg v a =>
    rw [tick_branch, tick_of_flagsClear hflags]
    exact haltTest_branch (greaterThan_iff _ v) hpc a
  case jme v a =>
    rw [tick_branch, tick_of_flagsClear hflags]
    exact haltTest_branch (equalTo_iff _ v) hpc a
  case hlt =>
    have hstopped : ({ s with running := false } : State).flagsClear := hflags
    exact haltTest_tick_of_flagsClear hstopped hpc

/-! ### How a stopped machine stands (R100) -/

@[simp] theorem faultOfCode_code (f : Fault) : faultOfCode f.code = some f := by cases f <;> rfl

theorem status_raise (f : Fault) (s : State) : (raise f s).status = .faulted f := by
  simp [State.status]

theorem status_of_stopped {s : State} (hrun : s.running = false) (hfault : s.fault = 0) :
    s.status = if s.pcAbsent then .ended else .halted := by
  simp [State.status, hrun, hfault, faultOfCode]

/-- A cycle that runs an instruction stops the machine by `hlt`, which holds the pc, or by an advance from the last
instruction (R24, R100 a and b). -/
theorem stopped_by_hlt_or_end {s t : State} {i : Instr} (hrun : s.running = true) (hfetch : fetchInstr s = .ok i)
    (hexec : exec i s = .next t) (hstop : (haltTest (tick t)).running = false) :
    (i = .hlt ∧ t.pcAbsent = false ∧ t.pcIdx = s.pcIdx) ∨ (t.pcAbsent = true ∧ t.pcIdx.toNat + 1 = t.progLen.val) := by
  obtain ⟨hpc, hinside, _⟩ := (fetchInstr_eq_ok s).1 hfetch
  obtain ⟨_, hlen, _⟩ := exec_keeps hexec
  by_cases hhlt : i = .hlt
  · subst hhlt
    cases hexec
    exact .inl ⟨rfl, hpc, rfl⟩
  · have hrunning : t.running = true := (running_exec_iff hexec).2 ⟨hrun, hhlt⟩
    have habsent : t.pcAbsent = true := by simpa [hrunning] using hstop
    obtain ⟨hidx, hlast⟩ := exec_pcAbsent hexec hpc habsent
    exact .inr ⟨habsent, by rw [hidx, hlen]; omega⟩

/-! ### The obligations -/

/-- Settles O29: each instruction's handler, tick and halt test make up its row of the table (`haltTest_tick_exec`). -/
theorem cycleMatchesNetEffectTable : Obligations.CycleMatchesNetEffectTable := by
  intro s i hrun hflags hpc hinside hdecode
  obtain ⟨t, hexec, hstep⟩ := step_of_fetchInstr_ok hrun ((fetchInstr_eq_ok s).2 ⟨hpc, hinside, hdecode⟩)
  rw [hstep, haltTest_tick_exec hflags hpc hexec]

/-- Settles O11: a Halted machine's cycle answers the same state, so every run does. -/
theorem haltedIsTerminal : Obligations.HaltedIsTerminal := fun _ hhalted =>
  ⟨run_of_step_self (step_of_halted hhalted), fun _ hlen => decide_eq_true hlen⟩

/-- Settles O12, by the register's tick with its frame and by what each handler sets from clear flags. -/
theorem oneRegisterTick : Obligations.OneRegisterTick := by
  refine ⟨fun r s => ⟨by simp, by simp, by simp, by simp, tickReg_frame r s⟩, fun s v t a hflags => ⟨?_, ?_, ?_⟩⟩
  · exact ⟨jumpTo a s, rfl, hflags⟩
  · obtain ⟨u, h⟩ := exec_next s (.mov v t)
    refine ⟨u, h, (loadPending_exec_of_flagsClear hflags h t).2 (.inl ⟨v, rfl⟩), ?_⟩
    simpa using enablePending_exec_of_flagsClear hflags h t
  · obtain ⟨u, h⟩ := exec_next s (.cop t)
    have hload := loadPending_exec_of_flagsClear hflags h
    have henable := enablePending_exec_of_flagsClear hflags h
    exact ⟨u, h, (henable t).2 rfl, Bool.eq_iff_iff.2 (by simp [hload]), (hload .C).2 (.inr ⟨t, rfl, rfl⟩),
      Bool.eq_iff_iff.2 (by simp [henable])⟩

/-- Settles O14: with no flag pending nothing is loaded and nothing is driven. -/
theorem tickWithoutFlagsIsIdentity : Obligations.TickWithoutFlagsIsIdentity :=
  ⟨fun _ _ => tickReg_of_no_flag, fun _ => tick_of_flagsClear⟩

/-- Settles O15: A ticks on the old bus, B on the bus that A leaves, C on the bus that B leaves (R94). -/
theorem tickInClosedForm : Obligations.TickInClosedForm := by
  intro s a bus1 b bus2 c bus3
  have hA : readReg .A (tick s) = a := readReg_A_tick s
  have hbus1 : (tickReg .A s).bus = bus1 := tickReg_bus s .A
  have hB : readReg .B (tick s) = b := (readReg_B_tick s).trans (by rw [hbus1]; rfl)
  have hbus2 : (tickReg .B (tickReg .A s)).bus = bus2 :=
    (bus_tickReg_B_A s).trans (by rw [hB, hbus1]; rfl)
  have hC : readReg .C (tick s) = c := (readReg_C_tick s).trans (by rw [hbus2]; rfl)
  have hbus3 : (tick s).bus = bus3 := (bus_tick s).trans (by rw [hC, hbus2]; rfl)
  apply State.ext_view
  case hbus => exact hbus3
  case hreg =>
    intro r
    cases r
    case A => exact hA
    case B => exact hB
    case C => exact hC
  case hload => intro r; cases r <;> exact loadPending_tick _ s
  case henable => intro r; cases r <;> exact enablePending_tick _ s
  all_goals simp

/-- Settles O16: after `cop A` or `cop B` the other register has no flag pending; after any other handler neither drives
the bus. -/
theorem ticksOfAAndBCommute : Obligations.TicksOfAAndBCommute := by
  intro s t i hflags hexec
  have henable := enablePending_exec_of_flagsClear hflags hexec
  by_cases hA : i = .cop .A
  · subst hA
    obtain ⟨hload, henableB⟩ := no_flag_of_exec_cop (r := .B) hflags hexec (by decide) (by decide)
    exact (tickReg_comm_of_no_flag hload henableB).symm
  by_cases hB : i = .cop .B
  · subst hB
    obtain ⟨hload, henableA⟩ := no_flag_of_exec_cop (r := .A) hflags hexec (by decide) (by decide)
    exact tickReg_comm_of_no_flag hload henableA
  · exact tickReg_comm_of_no_enable (Bool.eq_false_iff.2 (mt (henable .A).1 hA))
      (Bool.eq_false_iff.2 (mt (henable .B).1 hB))

/-- Settles O17: the tick delivers the immediate (`tick_of_exec_mov`), the advance from the last instruction leaves the pc
absent, and the halt test stops the machine. -/
theorem lastMovLandsAndEndsTheRun : Obligations.LastMovLandsAndEndsTheRun := by
  intro s v t hrun hpc hlast hflags hdecode
  obtain ⟨w, hexec, hstep⟩ := step_of_fetchInstr_ok hrun ((fetchInstr_eq_ok s).2 ⟨hpc, by omega, hdecode⟩)
  have htick : tick w = writePc none (writeReg t v (writeBus v s)) :=
    (tick_of_exec_mov hflags hexec).trans (advance_of_last (by simp [hlast]))
  have hclear := flagsClear_haltTest (flagsClear_tick w)
  rw [htick] at hstep hclear
  have hstopped : (haltTest (writePc none (writeReg t v (writeBus v s)))).running = false := by simp
  refine ⟨_, hstep, by simp, by simp, fun r hr => ?_, hclear, hstopped, by simp, by simp, by simp [FaultKept],
    by simp [ProgramKept], run_of_step_self (step_of_halted hstopped)⟩
  simp [List.ne_of_not_mem_cons hr]

/-- Settles O44: a cycle that stops the machine took a fault, or ran an instruction that is `hlt` or the last one. -/
theorem runEndsInOneOfThreeWays : Obligations.RunEndsInOneOfThreeWays := by
  intro s u hs hrun h hstop
  rcases step_next h with ⟨hhalted, _⟩ | ⟨_, f, hfetch, rfl⟩ | ⟨_, i, t, hfetch, hexec, rfl⟩
  · simp [hrun] at hhalted
  · exact .inr (.inr ⟨f, status_raise f s, hfetch, rfl, hs.runningHasPc hrun, rfl⟩)
  · obtain ⟨⟨hkept, _⟩, _, _⟩ := exec_keeps hexec
    have hfault : (haltTest (tick t)).fault = 0 := by simp [hkept, hs.runningNoFault hrun]
    have hstatus := status_of_stopped hstop hfault
    rcases stopped_by_hlt_or_end hrun hfetch hexec hstop with ⟨rfl, hpc, hidx⟩ | ⟨habsent, hlast⟩
    · exact .inl ⟨by simpa [hpc] using hstatus, hfetch, hfault, by simpa using hpc, by simpa using hidx⟩
    · exact .inr (.inl ⟨by simpa [habsent] using hstatus, hfault, by simpa using habsent, by simpa using hlast⟩)

/-- Settles O9, by the cycle of an instruction (`step_of_fetchInstr_ok`). -/
theorem stepRunsDecodedInstruction : Obligations.StepRunsDecodedInstruction := by
  intro s i hrun hpc hinside hdecode
  exact step_of_fetchInstr_ok hrun ((fetchInstr_eq_ok s).2 ⟨hpc, hinside, hdecode⟩)

/-- Settles O13: the load comes before the enable, which drives the value just loaded. -/
theorem bothFlagsRebroadcast : Obligations.BothFlagsRebroadcast := by
  intro r s hload henable
  exact ⟨by simp [hload], by simp [hload, henable], by simp, by simp⟩

end Sys2Proof.Machine
end

section
/-! Data transfer (41_transfer.md): what the handlers of `mov`, `mvc` and `cop` do and leave, what the cycles of `cop` and `mvc`
amount to, and that A and B take no value from anywhere else. -/

namespace Sys2Proof.Machine

/-! ### Register writes, the fetch, and the pc after the halt test -/

/-- A second write to a register leaves no trace of the first (R16). -/
@[simp] theorem writeReg_writeReg_same (r : Reg) (v w : Byte) (s : State) :
    writeReg r w (writeReg r v s) = writeReg r w s := by cases r <;> rfl

/-- The fetch and the dispatch see no register (R44, R93). -/
@[simp] theorem fetchInstr_writeReg (r : Reg) (v : Byte) (s : State) :
    fetchInstr (writeReg r v s) = fetchInstr s := by cases r <;> rfl

/-- The halt test does not move the pc (R99). -/
theorem pcAdvanced_haltTest {s u : State} : PcAdvanced s (haltTest u) ↔ PcAdvanced s u := by
  simp [PcAdvanced]

/-! ### What a handler keeps, and what the cycle after it keeps -/

/-- `exec_keeps` in the terms of the statements (R168). -/
theorem exec_keeps_fault_and_program {i : Instr} {s u : State} (h : exec i s = .next u) :
    FaultKept s u ∧ ProgramKept s u := by
  obtain ⟨hfault, hlen, hrom⟩ := exec_keeps h
  exact ⟨hfault, hlen, fun a => by rw [hrom]⟩

/-- A cycle that runs an instruction keeps the fault registers and the program memory (R26, R41). -/
theorem haltTest_tick_keeps_fault_and_program {i : Instr} {s t : State} (h : exec i s = .next t) :
    FaultKept s (haltTest (tick t)) ∧ ProgramKept s (haltTest (tick t)) := by
  simpa [FaultKept, ProgramKept] using exec_keeps_fault_and_program h

/-- A handler writes a register other than C only as `mvc` to it (R15). -/
theorem readReg_exec_of_ne_mvc {i : Instr} {s u : State} {r : Reg} (hr : r ≠ .C) (hi : i ≠ .mvc r)
    (h : exec i s = .next u) : readReg r u = readReg r s := by
  cases i <;> cases h
  case mvc t =>
    have hne : r ≠ t := fun heq => hi (heq ▸ rfl)
    simp [hne]
  case hlt => cases r <;> rfl
  all_goals simp [hr]

/-- The tick leaves a register with no load pending as it was (R96). -/
theorem readReg_tick_of_no_load {r : Reg} {s : State} (h : loadPending r s = false) :
    readReg r (tick s) = readReg r s := by
  cases r <;> simp [tick_eq, h]

/-! ### The cycle of `cop` -/

/-- The value that `cop t` brings to C: that of `t`, but for `t` = C the bus value, since C loads before it drives
(R97, R112). -/
def copValue (t : Reg) (s : State) : Byte := if t = .C then s.bus else readReg t s

@[simp] theorem copValue_C (s : State) : copValue .C s = s.bus := rfl

theorem copValue_of_ne_C {t : Reg} (ht : t ≠ .C) (s : State) : copValue t s = readReg t s := if_neg ht

/-- From clear flags the tick completes `cop t`: the bus and C take the one value it brings (R112). -/
theorem tick_of_exec_cop {t : Reg} {s u : State} (hflags : s.flagsClear) (h : exec (.cop t) s = .next u) :
    tick u = advance (writeReg .C (copValue t s) (writeBus (copValue t s) s)) := by
  cases h
  rw [tick_advance]
  rcases eq_or_ne t .C with rfl | ht
  · rw [tick_cop_C hflags]
    rfl
  · rw [tick_cop_of_ne_C hflags ht, copValue_of_ne_C ht]

/-! ### The cycle of `mvc` -/

/-- From clear flags the whole cycle of `mvc t` is one copy of C to `t` (R111). -/
theorem step_of_fetchInstr_mvc {t : Reg} {s : State} (hrun : s.running = true) (hflags : s.flagsClear)
    (hfetch : fetchInstr s = .ok (.mvc t)) : step s = .next (writeReg t (readReg .C s) s) := by
  obtain ⟨hpc, _, _⟩ := (fetchInstr_eq_ok s).1 hfetch
  obtain ⟨u, hexec, hstep⟩ := step_of_fetchInstr_ok hrun hfetch
  rw [hstep, haltTest_tick_exec hflags hpc hexec, netEffect_mvc]

/-- The next cycle fetches the same `mvc`, whose copy is already made: it changes nothing (R111). -/
theorem step_self_after_mvc {t : Reg} {s : State} (hrun : s.running = true) (hflags : s.flagsClear)
    (hfetch : fetchInstr s = .ok (.mvc t)) :
    step (writeReg t (readReg .C s) s) = .next (writeReg t (readReg .C s) s) := by
  have hagain := step_of_fetchInstr_mvc (s := writeReg t (readReg .C s) s) (by simpa using hrun)
    (flagsClear_writeReg hflags t _) (by simpa using hfetch)
  simpa using hagain

/-! ### The obligations -/

/-- Settles O30: the tick brings one value to the bus and C (`tick_of_exec_cop`), and the halt test sees the advanced pc. -/
theorem copCycle : Obligations.CopCycle := by
  intro s t hrun hflags hpc hinside hdecode
  obtain ⟨w, hexec, hstep⟩ := step_of_fetchInstr_ok hrun ((fetchInstr_eq_ok s).2 ⟨hpc, hinside, hdecode⟩)
  have hclear := flagsClear_haltTest (flagsClear_tick w)
  have hkept := haltTest_tick_keeps_fault_and_program hexec
  rw [tick_of_exec_cop hflags hexec] at hstep hclear hkept
  refine ⟨_, hstep, fun ht => ?_, fun ht => ?_, ?_, ?_, fun r hr => ?_, hclear, hkept⟩
  · simp [copValue_of_ne_C ht]
  · simp [ht]
  · exact pcAdvanced_haltTest.2 (pcAdvanced_advance_of_eq (by simp) (by simp))
  · simp [hrun]
  · simp [List.ne_of_not_mem_cons hr]

/-- Settles O31: the first cycle copies C, and the state it leaves is a fixed point of the cycle (`step_self_after_mvc`). -/
theorem mvcHangs : Obligations.MvcHangs := by
  intro s t hrun hflags hpc hinside hdecode
  have hfetch : fetchInstr s = .ok (.mvc t) := (fetchInstr_eq_ok s).2 ⟨hpc, hinside, hdecode⟩
  refine ⟨_, step_of_fetchInstr_mvc hrun hflags hfetch, by simp, by simp [PcHeld], by simpa using hrun, by simp,
    fun r hr => ?_, by simp [FaultKept], by simp [ProgramKept], run_of_step_self (step_self_after_mvc hrun hflags hfetch)⟩
  simp [List.ne_of_not_mem_cons hr]

/-- Settles O46: the tick loads A or B only for a `mov` to it, and of the handlers only `mvc` to it writes it. -/
theorem aAndBChangeByMovAndMvcOnly : Obligations.AAndBChangeByMovAndMvcOnly := by
  intro s u r hr hflags h hchanged
  rcases step_next h with ⟨_, rfl⟩ | ⟨_, f, _, rfl⟩ | ⟨_, i, t, hfetch, hexec, rfl⟩
  · exact absurd rfl hchanged
  · exact absurd (readReg_raise s r f) hchanged
  rw [readReg_haltTest] at hchanged ⊢
  by_cases hmov : ∃ v, i = .mov v r
  · obtain ⟨v, rfl⟩ := hmov
    exact .inl ⟨v, hfetch, by simp [tick_of_exec_mov hflags hexec]⟩
  · have hload : loadPending r t = false := by
      simpa [hmov, hr] using loadPending_exec_of_flagsClear hflags hexec r
    rw [readReg_tick_of_no_load hload] at hchanged ⊢
    have hmvc : i = .mvc r := by
      by_contra hne
      exact hchanged (readReg_exec_of_ne_mvc hr hne hexec)
    subst hmvc
    cases hexec
    exact .inr ⟨hfetch, by simp⟩

/-- Settles O18, by the rules of the three updates the handler makes. -/
theorem movHandler : Obligations.MovHandler := by
  intro s v t
  obtain ⟨u, h⟩ := exec_next s (.mov v t)
  have hkept := exec_keeps_fault_and_program h
  cases h
  refine ⟨_, rfl, by simp, by simp, pcAdvanced_advance_of_eq (by simp) (by simp), fun r _ => by simp,
    ⟨fun r hr => ?_, fun r _ => by simp⟩, by simp, hkept⟩
  simp [List.ne_of_not_mem_cons hr]

/-- Settles O19: the handler is one register write. -/
theorem mvcHandler : Obligations.MvcHandler := by
  intro s t
  obtain ⟨u, h⟩ := exec_next s (.mvc t)
  have hkept := exec_keeps_fault_and_program h
  cases h
  refine ⟨_, rfl, by simp, by simp [PcHeld], by simp, fun r hr => ?_, ⟨fun r _ => by simp, fun r _ => by simp⟩,
    by simp, hkept⟩
  simp [List.ne_of_not_mem_cons hr]

/-- Settles O22: two flags and the advance; the transfer itself is the tick's (`tick_of_exec_cop`). -/
theorem copHandler : Obligations.CopHandler := by
  intro s t
  obtain ⟨u, h⟩ := exec_next s (.cop t)
  have hkept := exec_keeps_fault_and_program h
  cases h
  refine ⟨_, rfl, by simp, by simp, pcAdvanced_advance_of_eq (by simp) (by simp), by simp, fun r _ => by simp,
    ⟨fun r hr => ?_, fun r hr => ?_⟩, by simp, hkept⟩
  · simp [List.ne_of_not_mem_cons hr]
  · simp [List.ne_of_not_mem_cons hr]

end Sys2Proof.Machine
end

section
/-! Arithmetic (42_arithmetic.md): what the handlers of `add` and `sub` write and leave, and that `sub` undoes `add`. -/

namespace Sys2Proof.Machine

/-! ### The two handlers -/

/-- The handler of `add` as the 8-bit sum (R120). -/
theorem exec_add (t : Reg) (s : State) :
    exec (.add t) s = .next (advance (writeReg .C (readReg .C s + readReg t s) s)) := by
  rw [← wrapAdd_eq]
  rfl

/-- The handler of `sub` as the 8-bit difference, accumulator minus other (R121). -/
theorem exec_sub (t : Reg) (s : State) :
    exec (.sub t) s = .next (advance (writeReg .C (readReg .C s - readReg t s) s)) := by
  rw [← wrapSub_eq]
  rfl

/-- The 8-bit difference as an integer: the non-negative remainder (R121). -/
theorem toNat_sub_eq_emod (c t : Byte) : ((c - t).toNat : Int) = ((c.toNat : Int) - (t.toNat : Int)) % 256 := by
  have hc := c.isLt
  have ht := t.isLt
  rw [BitVec.toNat_sub]
  omega

/-- What a handler that writes C and advances leaves unchanged, whatever it writes (R120, R121). -/
theorem advance_writeReg_C_frame (v : Byte) (s : State) :
    PcAdvanced s (advance (writeReg .C v s)) ∧ (advance (writeReg .C v s)).bus = s.bus ∧
    RegsKeptBut [.C] s (advance (writeReg .C v s)) ∧ FlagsKeptBut [] [] s (advance (writeReg .C v s)) ∧
    (advance (writeReg .C v s)).running = s.running ∧ FaultKept s (advance (writeReg .C v s)) ∧
    ProgramKept s (advance (writeReg .C v s)) := by
  refine ⟨pcAdvanced_advance_of_eq (by simp) (by simp), by simp, fun r hr => ?_,
    ⟨fun r _ => by simp, fun r _ => by simp⟩, by simp, by simp [FaultKept], by simp [ProgramKept]⟩
  simp [List.ne_of_not_mem_cons hr]

/-! ### The obligations -/

/-- Settles O20: the 8-bit sum is the sum modulo 256. -/
theorem addHandler : Obligations.AddHandler := by
  intro s t
  refine ⟨_, exec_add t s, ?_, advance_writeReg_C_frame _ s⟩
  simp [BitVec.toNat_add]

/-- Settles O21: the 8-bit difference is the non-negative remainder (`toNat_sub_eq_emod`). -/
theorem subHandler : Obligations.SubHandler := by
  intro s t
  refine ⟨_, exec_sub t s, ?_, advance_writeReg_C_frame _ s⟩
  simpa using toNat_sub_eq_emod (readReg .C s) (readReg t s)

/-- Settles O32: `add t` leaves `t` as it was, so `sub t` takes away from C what `add t` put there (R123). -/
theorem subUndoesAdd : Obligations.SubUndoesAdd := by
  intro s t ht
  refine ⟨_, _, exec_add t s, exec_sub t _, fun r => ?_⟩
  rcases eq_or_ne r .C with rfl | hr
  · simp only [readReg_advance, readReg_writeReg, ht, if_true, if_false]
    exact BitVec.add_sub_cancel (readReg .C s) (readReg t s)
  · simp [hr]

end Sys2Proof.Machine
end

section
/-! Jumps (43_jumps.md): the four handlers as one branch on the condition of their rule, what a branch leaves unchanged, and
what the fetch makes of a target that is missing. -/

namespace Sys2Proof.Machine

/-! ### The four handlers, each a branch on the condition its rule names (R130, R132 to R134) -/

theorem exec_jmp (a : Index) (s : State) : exec (.jmp a) s = .next (branch true a s) := rfl

theorem exec_jml (v : Byte) (a : Index) (s : State) :
    exec (.jml v a) s = .next (branch (decide ((readReg .C s).toNat < v.toNat)) a s) := rfl

theorem exec_jmg (v : Byte) (a : Index) (s : State) :
    exec (.jmg v a) s = .next (branch (decide ((readReg .C s).toNat > v.toNat)) a s) := rfl

theorem exec_jme (v : Byte) (a : Index) (s : State) :
    exec (.jme v a) s = .next (branch (decide (readReg .C s = v)) a s) := by
  have hcond : equalTo (readReg .C s) v = decide (readReg .C s = v) := Bool.eq_iff_iff.2 (by simp)
  rw [← hcond]
  rfl

/-! ### What a branch does to the pc, and what it leaves unchanged -/

theorem branch_decide_pc (c : Prop) [Decidable c] (a : Index) (s : State) :
    if c then PcIs a (branch (decide c) a s) else PcAdvanced s (branch (decide c) a s) := by
  by_cases h : c
  · simp [h, PcIs]
  · simpa [h] using pcAdvanced_advance s

/-- A branch writes the pc and nothing else, taken or not (R135). -/
theorem branch_frame (b : Bool) (a : Index) (s : State) :
    (branch b a s).bus = s.bus ∧ RegsKeptBut [] s (branch b a s) ∧ FlagsKeptBut [] [] s (branch b a s) ∧
    (branch b a s).running = s.running ∧ FaultKept s (branch b a s) ∧ ProgramKept s (branch b a s) :=
  ⟨by simp, fun r _ => by simp, ⟨fun r _ => by simp, fun r _ => by simp⟩, by simp, by simp [FaultKept],
    by simp [ProgramKept]⟩

/-! ### The cycle of a jump, and the fetch from a missing index (R44, R135) -/

/-- A running machine whose pc is at or past PROG_LEN takes AddressError (R44, R151). -/
theorem step_of_missing_index {s : State} (hrun : s.running = true) (hmissing : s.progLen.val ≤ s.pcIdx.toNat) :
    step s = .next (raise .addressError s) := by
  have hfetch : fetchInstr s = .error .addressError := (fetchInstr_eq_error s).2 (.inl ⟨rfl, .inr hmissing⟩)
  simp [step, hrun, hfetch]

/-- The cycle of an instruction whose handler is a jump leaves the machine running at the target, which nothing checks
(R135). -/
theorem step_of_exec_jumpTo {i : Instr} {a : Index} {s : State} (hrun : s.running = true) (hfetch : fetchInstr s = .ok i)
    (hexec : exec i s = .next (jumpTo a s)) :
    ∃ u, step s = .next u ∧ PcIs a u ∧ u.running = true ∧ FaultKept s u ∧ u.progLen = s.progLen := by
  obtain ⟨t, ht, hstep⟩ := step_of_fetchInstr_ok hrun hfetch
  obtain rfl : jumpTo a s = t := by simpa [hexec] using ht
  exact ⟨_, hstep, by simp [PcIs], by simpa using hrun, by simp [FaultKept], by simp⟩

/-- The cycle of an instruction whose handler only advances the pc stops the machine just where that leaves no pc
(R45, R99). -/
theorem step_of_exec_advance {i : Instr} {s : State} (hrun : s.running = true) (hfetch : fetchInstr s = .ok i)
    (hexec : exec i s = .next (advance s)) :
    ∃ u, step s = .next u ∧ PcAdvanced s u ∧ u.running = !u.pcAbsent ∧ FaultKept s u := by
  obtain ⟨t, ht, hstep⟩ := step_of_fetchInstr_ok hrun hfetch
  obtain rfl : advance s = t := by simpa [hexec] using ht
  have hpc : PcAdvanced s (haltTest (tick (advance s))) := by
    rw [pcAdvanced_haltTest, tick_advance]
    exact pcAdvanced_advance_of_eq (by simp) (by simp)
  exact ⟨_, hstep, hpc, by simp [hrun], by simp [FaultKept]⟩

/-! ### The obligations -/

/-- Settles O33: a jump taken is `jumpTo`, whose target only the next cycle's fetch looks at (`step_of_missing_index`); one not
taken is `advance`, which does not see the target at all. -/
theorem missingTargetFaultsAtNextFetch : Obligations.MissingTargetFaultsAtNextFetch := by
  intro s i v a hrun hpc hinside hdecode
  have hfetch : fetchInstr s = .ok i := (fetchInstr_eq_ok s).2 ⟨hpc, hinside, hdecode⟩
  refine ⟨fun htaken hmissing => ?_, fun hnot => ?_⟩
  · have hexec : exec i s = .next (jumpTo a s) := by
      rcases htaken with rfl | ⟨rfl, hless⟩ | ⟨rfl, hgreater⟩ | ⟨rfl, hequal⟩
      · rw [exec_jmp, branch_true]
      · rw [exec_jml, decide_eq_true hless, branch_true]
      · rw [exec_jmg, decide_eq_true hgreater, branch_true]
      · rw [exec_jme, decide_eq_true hequal, branch_true]
    obtain ⟨u, hstep, ⟨hidx, hpresent⟩, hrunning, hkept, hlen⟩ := step_of_exec_jumpTo hrun hfetch hexec
    have hfault : step u = .next (raise .addressError u) :=
      step_of_missing_index hrunning (by rwa [hlen, hidx])
    exact ⟨u, _, hstep, ⟨hidx, hpresent⟩, hrunning, hkept, hfault, rfl, rfl, hidx, hidx, hpresent⟩
  · have hexec : exec i s = .next (advance s) := by
      rcases hnot with ⟨rfl, hless⟩ | ⟨rfl, hgreater⟩ | ⟨rfl, hequal⟩
      · rw [exec_jml, decide_eq_false hless, branch_false]
      · rw [exec_jmg, decide_eq_false hgreater, branch_false]
      · rw [exec_jme, decide_eq_false hequal, branch_false]
    exact step_of_exec_advance hrun hfetch hexec

/-- Settles O23: the branch that is always taken. -/
theorem jmpHandler : Obligations.JmpHandler := fun s a =>
  ⟨_, exec_jmp a s, ⟨rfl, rfl⟩, branch_frame true a s⟩

/-- Settles O24: a branch on the unsigned `C < v`. -/
theorem jmlHandler : Obligations.JmlHandler := fun s v a =>
  ⟨_, exec_jml v a s, branch_decide_pc _ a s, branch_frame _ a s⟩

/-- Settles O25: a branch on the unsigned `C > v`. -/
theorem jmgHandler : Obligations.JmgHandler := fun s v a =>
  ⟨_, exec_jmg v a s, branch_decide_pc _ a s, branch_frame _ a s⟩

/-- Settles O26: a branch on `C = v`. -/
theorem jmeHandler : Obligations.JmeHandler := fun s v a =>
  ⟨_, exec_jme v a s, branch_decide_pc _ a s, branch_frame _ a s⟩

end Sys2Proof.Machine
end

section
/-! Halt (44_halt.md): the handler of `hlt` as one write of `running`, and what such a write leaves unchanged. -/

namespace Sys2Proof.Machine

/-! ### The handler -/

/-- The handler of `hlt` clears `running` and does not write the pc (R140). -/
theorem exec_hlt (s : State) : exec .hlt s = .next { s with running := false } := rfl

/-- No register is touched by a write of `running` (R140). -/
theorem readReg_set_running (r : Reg) (b : Bool) (s : State) : readReg r { s with running := b } = readReg r s := by
  cases r <;> rfl

/-- No load flag is touched by a write of `running` (R140). -/
theorem loadPending_set_running (r : Reg) (b : Bool) (s : State) :
    loadPending r { s with running := b } = loadPending r s := by
  cases r <;> rfl

/-- No enable flag is touched by a write of `running` (R140). -/
theorem enablePending_set_running (r : Reg) (b : Bool) (s : State) :
    enablePending r { s with running := b } = enablePending r s := by
  cases r <;> rfl

/-! ### The obligation -/

/-- Settles O27: the handler is one write of `running`; no handler touches the fault registers or the program (R168). -/
theorem hltHandler : Obligations.HltHandler := by
  intro s
  have hexec := exec_hlt s
  have hheld : PcHeld s { s with running := false } := ⟨rfl, rfl⟩
  have hregs : RegsKeptBut [] s { s with running := false } := fun r _ => readReg_set_running r false s
  have hflags : FlagsKeptBut [] [] s { s with running := false } :=
    ⟨fun r _ => loadPending_set_running r false s, fun r _ => enablePending_set_running r false s⟩
  exact ⟨_, hexec, rfl, hheld, rfl, hregs, hflags, exec_keeps_fault_and_program hexec⟩

end Sys2Proof.Machine
end

section
/-! Exceptions (60_exceptions.md): the cycle that raises a fault, and which handlers can bring a running machine to an index with
no instruction. -/

namespace Sys2Proof.Machine

/-! ### The cycle that raises a fault (R151) -/

/-- A running machine whose fetch or dispatch raises a fault takes it, and does nothing else in that cycle (R151). -/
theorem step_of_fetchInstr_error {s : State} {f : Fault} (hrun : s.running = true) (hfetch : fetchInstr s = .error f) :
    step s = .next (raise f s) := by
  simp [step, hrun, hfetch]

/-! ### What leads to an index with no instruction (R152) -/

/-- `i` is a jump to `a` whose condition holds in `s` (R130, R132 to R134). -/
def TakesJumpTo (a : Index) (i : Instr) (s : State) : Prop :=
  i = .jmp a ∨
  ∃ v, (i = .jml v a ∧ (readReg .C s).toNat < v.toNat) ∨ (i = .jmg v a ∧ (readReg .C s).toNat > v.toNat) ∨
    (i = .jme v a ∧ readReg .C s = v)

/-- A branch advances the pc, or its condition holds and the pc is the target. -/
theorem branch_decide_advanced_or_taken (c : Prop) [Decidable c] (a : Index) (s : State) :
    PcAdvanced s (branch (decide c) a s) ∨ c ∧ (branch (decide c) a s).pcIdx = a := by
  have hpc := branch_decide_pc c a s
  split at hpc
  case isTrue hc => exact .inr ⟨hc, hpc.1⟩
  case isFalse => exact .inl hpc

/-- A handler that neither advances nor holds the pc is that of a jump taken to where the pc now is (R21). -/
theorem exec_pc_advanced_held_or_jump {i : Instr} {s t : State} (h : exec i s = .next t) :
    PcAdvanced s t ∨ PcHeld s t ∨ TakesJumpTo t.pcIdx i s := by
  cases i
  case jmp a =>
    cases h
    exact .inr (.inr (.inl rfl))
  case jml v a =>
    cases (exec_jml v a s).symm.trans h
    exact (branch_decide_advanced_or_taken _ a s).imp_right fun ⟨hless, hidx⟩ =>
      .inr (.inr ⟨v, .inl ⟨by rw [hidx], hless⟩⟩)
  case jmg v a =>
    cases (exec_jmg v a s).symm.trans h
    exact (branch_decide_advanced_or_taken _ a s).imp_right fun ⟨hgreater, hidx⟩ =>
      .inr (.inr ⟨v, .inr (.inl ⟨by rw [hidx], hgreater⟩)⟩)
  case jme v a =>
    cases (exec_jme v a s).symm.trans h
    exact (branch_decide_advanced_or_taken _ a s).imp_right fun ⟨hequal, hidx⟩ =>
      .inr (.inr ⟨v, .inr (.inr ⟨by rw [hidx], hequal⟩)⟩)
  all_goals cases h
  case mov | add | sub | cop => exact .inl (pcAdvanced_advance_of_eq (by simp) (by simp))
  case mvc | hlt => exact .inr (.inl (by simp [PcHeld]))

/-- An advance that leaves a pc leaves it at an instruction: past the last one it would be absent (R45). -/
theorem pcIdx_lt_of_pcAdvanced {s t : State} (hadv : PcAdvanced s t) (hpc : t.pcAbsent = false) :
    t.pcIdx.toNat < s.progLen.val := by
  unfold PcAdvanced at hadv
  split at hadv
  case isTrue hnext => rwa [hadv.1]
  case isFalse => simp [hadv.2] at hpc

/-- From an index that holds an instruction a handler reaches one that holds none by a taken jump alone (R152). -/
theorem takesJumpTo_of_exec_to_missing_index {i : Instr} {s t : State} (hexec : exec i s = .next t)
    (hinside : s.pcIdx.toNat < s.progLen.val) (hpc : t.pcAbsent = false) (hmissing : s.progLen.val ≤ t.pcIdx.toNat) :
    TakesJumpTo t.pcIdx i s := by
  rcases exec_pc_advanced_held_or_jump hexec with hadv | ⟨hidx, _⟩ | hjump
  · exact absurd (pcIdx_lt_of_pcAdvanced hadv hpc) (by omega)
  · exact absurd hinside (by rw [← hidx]; omega)
  · exact hjump

/-! ### The obligations -/

/-- Settles O10: each of the three conditions is one of the faults of `fetchInstr_eq_error`, and `raise` writes what R151 lists. -/
theorem faultEffect : Obligations.FaultEffect := fun s hrun hpc =>
  ⟨fun hmissing => step_of_missing_index hrun hmissing,
   fun hinside hunknown =>
    step_of_fetchInstr_error hrun ((fetchInstr_eq_error s).2 (.inr ⟨hpc, hinside, .inl ⟨rfl, hunknown⟩⟩)),
   fun hinside hformat =>
    step_of_fetchInstr_error hrun ((fetchInstr_eq_error s).2 (.inr ⟨hpc, hinside, .inr ⟨rfl, hformat⟩⟩))⟩

/-- Settles O45: a machine still running has run an instruction (`step_next`), and the tick and the halt test leave the pc where
the handler put it. -/
theorem addressErrorNeedsATakenJump : Obligations.AddressErrorNeedsATakenJump := by
  refine ⟨fun s u hrun hstep hrunning hmissing => ?_, fun _ _ _ hrunning => of_decide_eq_true hrunning⟩
  rcases step_next hstep with ⟨hhalted, _⟩ | ⟨_, f, _, rfl⟩ | ⟨_, i, t, hfetch, hexec, rfl⟩
  · simp [hrun] at hhalted
  · simp at hrunning
  · obtain ⟨_, hinside, _⟩ := (fetchInstr_eq_ok s).1 hfetch
    obtain ⟨_, hlen, _⟩ := exec_keeps hexec
    obtain ⟨_, hpc⟩ : t.running = true ∧ t.pcAbsent = false := by simpa using hrunning
    have hjump : TakesJumpTo t.pcIdx i s :=
      takesJumpTo_of_exec_to_missing_index hexec hinside hpc (by simpa [hlen] using hmissing)
    simpa [hfetch, TakesJumpTo] using hjump

/-- Settles O28: every handler completes, and none writes the fault registers or the program memory. -/
theorem handlersRaiseNothing : Obligations.HandlersRaiseNothing := by
  intro i s
  obtain ⟨u, hexec⟩ := exec_next s i
  exact ⟨u, hexec, exec_keeps_fault_and_program hexec⟩

/-- Settles O34: of the three things a cycle can do, each is a next state (`step_cases`). -/
theorem everyCycleAnswersNext : Obligations.EveryCycleAnswersNext := step_completes

end Sys2Proof.Machine
end

section
/-! Reset and boot (70_reset_and_hazards.md): the image the host loads reads back word by word, and the first fetch after reset. -/

namespace Sys2Proof.Machine

/-! ### The image of a program (R48) -/

@[simp] theorem imageFrom_cons (i : Nat) (w : Word) (ws : List Word) :
    imageFrom i (w :: ws) = (imageFrom (i + 1) ws).writeWord (BitVec.ofNat 8 i) w := rfl

/-- The image of words up to index `i + ws.length` lists nothing at or beyond it (R50). -/
theorem mem_imageFrom_lt {i : Nat} {ws : List Word} (hfits : i + ws.length ≤ 256) :
    ∀ c ∈ imageFrom i ws, c.1 < Config.wordBytes * (i + ws.length) := by
  induction ws generalizing i with
  | nil => exact fun c hc => absurd hc List.not_mem_nil
  | cons w rest ih =>
    intro c hc
    have hlen : i + (w :: rest).length = i + 1 + rest.length := by simp only [List.length_cons]; omega
    rw [hlen] at hfits ⊢
    have hi : (BitVec.ofNat 8 i).toNat = i := by simp only [BitVec.toNat_ofNat]; omega
    rcases Memory.mem_writeWord hc with hrest | ⟨_, hword⟩
    · exact ih hfits c hrest
    · rw [hi] at hword
      exact hword.trans_le (Nat.mul_le_mul_left _ (Nat.le_add_right _ _))

/-- The word at index `i + k` of an image that starts at index `i` is the `k`-th of its words: the words stand at
different indices, as none wraps around. -/
theorem readWord_imageFrom {i k : Nat} {ws : List Word} (hfits : i + ws.length ≤ 256) (hk : k < ws.length) :
    Memory.readWord (imageFrom i ws) (BitVec.ofNat 8 (i + k)) = ws[k] := by
  induction ws generalizing i k with
  | nil => exact absurd hk (Nat.not_lt_zero k)
  | cons w rest ih =>
    simp only [List.length_cons] at hfits hk
    cases k with
    | zero => exact Memory.readWord_writeWord_same (wf_imageFrom (i + 1) rest)
    | succ k =>
      have hindex : i + (k + 1) = i + 1 + k := by omega
      have hne : BitVec.ofNat 8 (i + 1 + k) ≠ BitVec.ofNat 8 i := by
        rw [Ne, ← BitVec.toNat_inj, BitVec.toNat_ofNat, BitVec.toNat_ofNat]
        omega
      rw [hindex, imageFrom_cons, Memory.readWord_writeWord_other hne]
      exact ih (by omega) (by omega)

/-! ### Boot (R182) -/

/-- The boot of a program that fits is the reset with its image in place. -/
theorem bootWith_of_fits (init : Config.Init) {ws : List Word} (h : ws.length ≤ 256) :
    bootWith init ws = some (hostReset init (imageFrom 0 ws) ⟨ws.length, Nat.lt_succ_of_le h⟩) :=
  dif_pos ((wellFormedProgram_iff ws).2 h)

/-- A program that does not fit is refused. -/
theorem bootWith_of_too_long (init : Config.Init) {ws : List Word} (h : 256 < ws.length) : bootWith init ws = none :=
  dif_neg fun hfits => absurd ((wellFormedProgram_iff ws).1 hfits) (Nat.not_le.2 h)

/-- With the image of a program in place, every index reads its word, and none past the end (R42, R44). -/
theorem memRead_of_imageFrom {ws : List Word} {s : State} (hrom : s.rom = imageFrom 0 ws)
    (hlen : s.progLen.val = ws.length) (i : Index) : memRead i s = ws[i.toNat]? := by
  have hfits : 0 + ws.length ≤ 256 := by have := s.progLen.isLt; omega
  unfold memRead
  split
  case isTrue hi =>
    have hin : i.toNat < ws.length := hlen ▸ hi
    have hword := readWord_imageFrom hfits hin
    rw [Nat.zero_add, BitVec.ofNat_toNat, BitVec.setWidth_eq] at hword
    rw [hrom, hword, List.getElem?_eq_getElem hin]
  case isFalse hi => exact (List.getElem?_eq_none (by omega)).symm

/-! ### The first fetch (R181) -/

/-- A fetch from a present pc inside the program answers the word there (R44). -/
theorem fetch_of_inside {s : State} (hpc : s.pcAbsent = false) (hinside : s.pcIdx.toNat < s.progLen.val) :
    fetch s = .ok (Memory.readWord s.rom s.pcIdx) := by
  rcases fetch_cases s with ⟨_, _, hfetch⟩ | ⟨habsent | hpast, _⟩
  · exact hfetch
  · simp [hpc] at habsent
  · omega

/-! ### The obligations -/

/-- Settles O52: the boot is the reset of the program's image, which is canonical, ends where the program does and reads back
word by word. -/
theorem bootedProgramReadsBack : Obligations.BootedProgramReadsBack := by
  refine fun init ws => ⟨fun hfits => ?_, bootWith_of_too_long init⟩
  have hinside : ∀ c ∈ imageFrom 0 ws, c.1 < Config.wordBytes * ws.length := by
    simpa using mem_imageFrom_lt (i := 0) (ws := ws) (by omega)
  exact ⟨_, bootWith_of_fits init hfits, hostReset_inv init (wf_imageFrom 0 ws) hinside, rfl,
    memRead_of_imageFrom rfl rfl⟩

/-- Settles O49: reset puts the pc at index 0, inside every program that is not empty; the empty program is Halted from the
start, and a Halted machine stays as it is. -/
theorem firstFetchAfterReset : Obligations.FirstFetchAfterReset := by
  intro init rom n
  refine ⟨fun hpos => ⟨decide_eq_true hpos, ?_⟩, fun hempty => ?_⟩
  · have hpc : (hostReset init rom n).pcAbsent = false := decide_eq_false (Nat.one_le_iff_ne_zero.1 hpos)
    exact fetch_of_inside hpc hpos
  · have hhalted : (hostReset init rom n).running = false := decide_eq_false (by omega)
    exact ⟨hhalted, rfl, run_of_step_self (step_of_halted hhalted)⟩

end Sys2Proof.Machine
end

section
/-! The decoder vectors of 95_test_vectors.md section 2.1: each listed word is the encoding of its instruction, or is invalid
by the rule of its class (30_encoding.md R71). -/

namespace Sys2Proof

/-- The two directions of R70 in one. -/
theorem decode_eq_ok_iff_encode_eq {w : Word} {i : Instr} : decode w = .ok i ↔ encode i = w :=
  decode_eq_ok_iff.trans hasFieldsOf_iff

/-- Settles O1: twelve words are the encodings of their instructions, one has register code 3, one sets the `reg` field that
`jmp` does not use, and two have a reserved opcode. -/
theorem specWordsDecode : Obligations.SpecWordsDecode := by
  have valid (w : Word) (i : Instr) (h : encode i = w) : decode w = .ok i := decode_eq_ok_iff_encode_eq.2 h
  have registerCodeThree : decode 0x0C0100 = .formatError := by
    obtain ⟨_, _, _, _, codeThree⟩ := registerCodes
    exact codeThree _ (by decide) (by decide)
  have jmpWithReg : decode 0x540002 = .formatError := by
    obtain ⟨_, _, _, unusedReg⟩ := unusedFieldsMustBeZero 0x540002 (by decide)
    exact unusedReg (by decide) (by decide)
  have reserved (w : Word) (h : 0xA ≤ (opcodeField w).toNat) : decode w = .unknownOpcode :=
    (reservedOpcodesAreUnknown w).2 h
  exact ⟨valid _ _ rfl, valid _ _ rfl, valid _ _ rfl, valid _ _ rfl, valid _ _ rfl, valid _ _ rfl, valid _ _ rfl,
    valid _ _ rfl, valid _ _ rfl, valid _ _ rfl, valid _ _ rfl, valid _ _ rfl, registerCodeThree, jmpWithReg,
    reserved _ (by decide), reserved _ (by decide)⟩

end Sys2Proof
end
